-- ==== Sys2Proof/Word.lean ====
section
/-! DEFINITION. The word types of the machine (00_scope R8, R10, R11): every value is unsigned. -/

namespace Sys2Proof

/-- A byte: one memory cell, one general register, one timer (R21, R29, R50). -/
abbrev Byte := BitVec 8

/-- A 16-bit value: an instruction word, the index register, the program counter, a stack entry (R24, R25, R27, R70). -/
abbrev Word := BitVec 16

/-- The 4-bit immediate `n` (R71). -/
abbrev Nibble := BitVec 4

/-- The 12-bit immediate `nnn` (R71). -/
abbrev Addr12 := BitVec 12

/-- A register number: `x` or `y` of an instruction names `V[x]` or `V[y]` (R21, R71). -/
abbrev Reg := Fin 16

/-- A key of the keypad, 0x0 to 0xF (R31). -/
abbrev Key := Fin 16

/-- VF, the register that doubles as the flag (R23). -/
def regF : Reg := 15

end Sys2Proof
end

