-- ==== Sys2Proof/Syntax.lean ====
section
/-! DEFINITION. The instructions: one constructor per row of spec/opcode_table.json, in the order of 30_encoding R80. -/

namespace Sys2Proof

inductive Instr where
  /-- `00E0` CLS (R181). -/
  | cls
  /-- `00EE` RET (R102). -/
  | ret
  /-- `0NNN` SYS nnn (R101). -/
  | sys (nnn : Addr12)
  /-- `1NNN` JP nnn (R103). -/
  | jp (nnn : Addr12)
  /-- `2NNN` CALL nnn (R104). -/
  | call (nnn : Addr12)
  /-- `3XNN` SE Vx, nn (R105). -/
  | seImm (x : Reg) (nn : Byte)
  /-- `4XNN` SNE Vx, nn (R106). -/
  | sneImm (x : Reg) (nn : Byte)
  /-- `5XY0` SE Vx, Vy (R107). -/
  | seReg (x y : Reg)
  /-- `6XNN` LD Vx, nn (R131). -/
  | ldImm (x : Reg) (nn : Byte)
  /-- `7XNN` ADD Vx, nn (R132). -/
  | addImm (x : Reg) (nn : Byte)
  /-- `8XY0` LD Vx, Vy (R133). -/
  | ldReg (x y : Reg)
  /-- `8XY1` OR Vx, Vy (R134). -/
  | orReg (x y : Reg)
  /-- `8XY2` AND Vx, Vy (R135). -/
  | andReg (x y : Reg)
  /-- `8XY3` XOR Vx, Vy (R136). -/
  | xorReg (x y : Reg)
  /-- `8XY4` ADD Vx, Vy (R137). -/
  | addReg (x y : Reg)
  /-- `8XY5` SUB Vx, Vy (R138). -/
  | subReg (x y : Reg)
  /-- `8XY6` SHR Vx, Vy (R139). -/
  | shr (x y : Reg)
  /-- `8XY7` SUBN Vx, Vy (R140). -/
  | subn (x y : Reg)
  /-- `8XYE` SHL Vx, Vy (R141). -/
  | shl (x y : Reg)
  /-- `9XY0` SNE Vx, Vy (R108). -/
  | sneReg (x y : Reg)
  /-- `ANNN` LD I, nnn (R161). -/
  | ldI (nnn : Addr12)
  /-- `BNNN` JP V0, nnn (R109). -/
  | jpV0 (nnn : Addr12)
  /-- `CXNN` RND Vx, nn (R142). -/
  | rnd (x : Reg) (nn : Byte)
  /-- `DXYN` DRW Vx, Vy, n (R182). -/
  | drw (x y : Reg) (n : Nibble)
  /-- `EX9E` SKP Vx (R201). -/
  | skp (x : Reg)
  /-- `EXA1` SKNP Vx (R202). -/
  | sknp (x : Reg)
  /-- `FX07` LD Vx, DT (R203). -/
  | ldVxDt (x : Reg)
  /-- `FX0A` LD Vx, K (R204). -/
  | ldVxK (x : Reg)
  /-- `FX15` LD DT, Vx (R205). -/
  | ldDtVx (x : Reg)
  /-- `FX18` LD ST, Vx (R206). -/
  | ldStVx (x : Reg)
  /-- `FX1E` ADD I, Vx (R162). -/
  | addI (x : Reg)
  /-- `FX29` LD F, Vx (R163). -/
  | ldF (x : Reg)
  /-- `FX33` LD B, Vx (R164). -/
  | ldB (x : Reg)
  /-- `FX55` LD [I], Vx (R165). -/
  | ldStore (x : Reg)
  /-- `FX65` LD Vx, [I] (R166). -/
  | ldLoad (x : Reg)
deriving DecidableEq, Repr

end Sys2Proof
end

