-- ==== Sys2Proof/Decode.lean ====
section
/-! DEFINITION. Decoding and encoding (30_encoding R70 to R84). PRESUMED (log entry 9; unsafe): the bit patterns are those of R80, which
the spec itself takes from general knowledge but for the four words its source writes out. -/

namespace Sys2Proof

/-! ### Fields (R71) -/

/-- `f`, bits 15:12. -/
def fieldF (w : Word) : Nibble := w.extractLsb' 12 4
/-- `x`, bits 11:8, as a register number. -/
def fieldX (w : Word) : Reg := (w.extractLsb' 8 4).toFin
/-- `y`, bits 7:4, as a register number. -/
def fieldY (w : Word) : Reg := (w.extractLsb' 4 4).toFin
/-- `n`, bits 3:0. -/
def fieldN (w : Word) : Nibble := w.extractLsb' 0 4
/-- `nn`, bits 7:0. -/
def fieldNN (w : Word) : Byte := w.extractLsb' 0 8
/-- `nnn`, bits 11:0. -/
def fieldNNN (w : Word) : Addr12 := w.extractLsb' 0 12

/-! ### Decode (R74) -/

/-- Why bits are no instruction: the bullets of R81, and a fetch that ran out of bytes. `0NNN` is not among them: whether it is
illegal is `SYS_POLICY`'s to say, at execution (R101; log entry 10). -/
inductive Illegal where
  /-- `5XYn` with n not 0. -/
  | family5
  /-- `8XYn` with n in 8..D or F. -/
  | family8
  /-- `9XYn` with n not 0. -/
  | family9
  /-- `EXss` with ss neither 9E nor A1. -/
  | familyE
  /-- `FXss` with ss none of the nine of the table. -/
  | familyF
  /-- Fewer than two bytes were given (R70). -/
  | truncated
deriving DecidableEq, Repr

/-- What a word decodes to: one instruction, or Illegal (R74). -/
inductive Decoded where
  | instr (i : Instr)
  | illegal (why : Illegal)
deriving DecidableEq, Repr

/-- Family 0: CLS and RET are tried before SYS (R74, R82). -/
def decode0 (w : Word) : Decoded :=
  if w = 0x00E0 then .instr .cls
  else if w = 0x00EE then .instr .ret
  else .instr (.sys (fieldNNN w))

/-- Family 8: the sub-opcode is nibble 4 (R74). -/
def decode8 (w : Word) : Decoded :=
  let x := fieldX w
  let y := fieldY w
  match fieldN w with
  | 0x0#4 => .instr (.ldReg x y)
  | 0x1#4 => .instr (.orReg x y)
  | 0x2#4 => .instr (.andReg x y)
  | 0x3#4 => .instr (.xorReg x y)
  | 0x4#4 => .instr (.addReg x y)
  | 0x5#4 => .instr (.subReg x y)
  | 0x6#4 => .instr (.shr x y)
  | 0x7#4 => .instr (.subn x y)
  | 0xE#4 => .instr (.shl x y)
  | _ => .illegal .family8

/-- Family E: the sub-opcode is the low byte (R74). -/
def decodeE (w : Word) : Decoded :=
  match fieldNN w with
  | 0x9E#8 => .instr (.skp (fieldX w))
  | 0xA1#8 => .instr (.sknp (fieldX w))
  | _ => .illegal .familyE

/-- Family F: the sub-opcode is the low byte (R74). -/
def decodeF (w : Word) : Decoded :=
  let x := fieldX w
  match fieldNN w with
  | 0x07#8 => .instr (.ldVxDt x)
  | 0x0A#8 => .instr (.ldVxK x)
  | 0x15#8 => .instr (.ldDtVx x)
  | 0x18#8 => .instr (.ldStVx x)
  | 0x1E#8 => .instr (.addI x)
  | 0x29#8 => .instr (.ldF x)
  | 0x33#8 => .instr (.ldB x)
  | 0x55#8 => .instr (.ldStore x)
  | 0x65#8 => .instr (.ldLoad x)
  | _ => .illegal .familyF

/-- `Decode(w)` of R74: total on every 16-bit word. -/
def decode (w : Word) : Decoded :=
  match fieldF w with
  | 0x0#4 => decode0 w
  | 0x1#4 => .instr (.jp (fieldNNN w))
  | 0x2#4 => .instr (.call (fieldNNN w))
  | 0x3#4 => .instr (.seImm (fieldX w) (fieldNN w))
  | 0x4#4 => .instr (.sneImm (fieldX w) (fieldNN w))
  | 0x5#4 => if fieldN w = 0 then .instr (.seReg (fieldX w) (fieldY w)) else .illegal .family5
  | 0x6#4 => .instr (.ldImm (fieldX w) (fieldNN w))
  | 0x7#4 => .instr (.addImm (fieldX w) (fieldNN w))
  | 0x8#4 => decode8 w
  | 0x9#4 => if fieldN w = 0 then .instr (.sneReg (fieldX w) (fieldY w)) else .illegal .family9
  | 0xA#4 => .instr (.ldI (fieldNNN w))
  | 0xB#4 => .instr (.jpV0 (fieldNNN w))
  | 0xC#4 => .instr (.rnd (fieldX w) (fieldNN w))
  | 0xD#4 => .instr (.drw (fieldX w) (fieldY w) (fieldN w))
  | 0xE#4 => decodeE w
  | _ => decodeF w

/-- The word of two bytes, the byte at the lower address high (R51, R54). -/
def wordOfBytes (hi lo : Byte) : Word := hi ++ lo
/-- The high byte of a word: the byte at the lower address. -/
def highByte (w : Word) : Byte := w.extractLsb' 8 8
/-- The low byte of a word: the byte at the higher address. -/
def lowByte (w : Word) : Byte := w.extractLsb' 0 8

/-- Decoding of any list of bytes: an instruction is its first two bytes (R70). -/
def decodeBytes : List Byte → Decoded
  | hi :: lo :: _ => decode (wordOfBytes hi lo)
  | _ => .illegal .truncated

/-! ### Encode (R80) -/

/-- The register's 4-bit field. -/
def regBits (x : Reg) : Nibble := BitVec.ofFin x

/-- Format `A`: `f nnn`. -/
def packA (f : Nibble) (nnn : Addr12) : Word := f ++ nnn
/-- Format `XB`: `f x nn`; with a sub-opcode byte for `nn` it is format `XS`. -/
def packXB (f : Nibble) (x : Reg) (nn : Byte) : Word := f ++ (regBits x ++ nn : BitVec 12)
/-- Format `XYN`: `f x y n`; with a sub-opcode nibble for `n` it is format `XY`. -/
def packXYN (f : Nibble) (x y : Reg) (n : Nibble) : Word := f ++ (regBits x ++ (regBits y ++ n : BitVec 8) : BitVec 12)

/-- The word of an instruction, row by row of R80. -/
def encode : Instr → Word
  | .cls => 0x00E0
  | .ret => 0x00EE
  | .sys nnn => packA 0x0 nnn
  | .jp nnn => packA 0x1 nnn
  | .call nnn => packA 0x2 nnn
  | .seImm x nn => packXB 0x3 x nn
  | .sneImm x nn => packXB 0x4 x nn
  | .seReg x y => packXYN 0x5 x y 0x0
  | .ldImm x nn => packXB 0x6 x nn
  | .addImm x nn => packXB 0x7 x nn
  | .ldReg x y => packXYN 0x8 x y 0x0
  | .orReg x y => packXYN 0x8 x y 0x1
  | .andReg x y => packXYN 0x8 x y 0x2
  | .xorReg x y => packXYN 0x8 x y 0x3
  | .addReg x y => packXYN 0x8 x y 0x4
  | .subReg x y => packXYN 0x8 x y 0x5
  | .shr x y => packXYN 0x8 x y 0x6
  | .subn x y => packXYN 0x8 x y 0x7
  | .shl x y => packXYN 0x8 x y 0xE
  | .sneReg x y => packXYN 0x9 x y 0x0
  | .ldI nnn => packA 0xA nnn
  | .jpV0 nnn => packA 0xB nnn
  | .rnd x nn => packXB 0xC x nn
  | .drw x y n => packXYN 0xD x y n
  | .skp x => packXB 0xE x 0x9E
  | .sknp x => packXB 0xE x 0xA1
  | .ldVxDt x => packXB 0xF x 0x07
  | .ldVxK x => packXB 0xF x 0x0A
  | .ldDtVx x => packXB 0xF x 0x15
  | .ldStVx x => packXB 0xF x 0x18
  | .addI x => packXB 0xF x 0x1E
  | .ldF x => packXB 0xF x 0x29
  | .ldB x => packXB 0xF x 0x33
  | .ldStore x => packXB 0xF x 0x55
  | .ldLoad x => packXB 0xF x 0x65

/-! ### The opcode map as mask and pattern (R74, R80) -/

/-- The bits the instruction's row of R80 fixes. -/
def rowMask : Instr → Word
  | .cls => 0xFFFF
  | .ret => 0xFFFF
  | .sys _ => 0xF000
  | .jp _ => 0xF000
  | .call _ => 0xF000
  | .seImm _ _ => 0xF000
  | .sneImm _ _ => 0xF000
  | .seReg _ _ => 0xF00F
  | .ldImm _ _ => 0xF000
  | .addImm _ _ => 0xF000
  | .ldReg _ _ => 0xF00F
  | .orReg _ _ => 0xF00F
  | .andReg _ _ => 0xF00F
  | .xorReg _ _ => 0xF00F
  | .addReg _ _ => 0xF00F
  | .subReg _ _ => 0xF00F
  | .shr _ _ => 0xF00F
  | .subn _ _ => 0xF00F
  | .shl _ _ => 0xF00F
  | .sneReg _ _ => 0xF00F
  | .ldI _ => 0xF000
  | .jpV0 _ => 0xF000
  | .rnd _ _ => 0xF000
  | .drw _ _ _ => 0xF000
  | .skp _ => 0xF0FF
  | .sknp _ => 0xF0FF
  | .ldVxDt _ => 0xF0FF
  | .ldVxK _ => 0xF0FF
  | .ldDtVx _ => 0xF0FF
  | .ldStVx _ => 0xF0FF
  | .addI _ => 0xF0FF
  | .ldF _ => 0xF0FF
  | .ldB _ => 0xF0FF
  | .ldStore _ => 0xF0FF
  | .ldLoad _ => 0xF0FF

/-- The value those bits have in the instruction's row of R80 ("match"). -/
def rowMatch : Instr → Word
  | .cls => 0x00E0
  | .ret => 0x00EE
  | .sys _ => 0x0000
  | .jp _ => 0x1000
  | .call _ => 0x2000
  | .seImm _ _ => 0x3000
  | .sneImm _ _ => 0x4000
  | .seReg _ _ => 0x5000
  | .ldImm _ _ => 0x6000
  | .addImm _ _ => 0x7000
  | .ldReg _ _ => 0x8000
  | .orReg _ _ => 0x8001
  | .andReg _ _ => 0x8002
  | .xorReg _ _ => 0x8003
  | .addReg _ _ => 0x8004
  | .subReg _ _ => 0x8005
  | .shr _ _ => 0x8006
  | .subn _ _ => 0x8007
  | .shl _ _ => 0x800E
  | .sneReg _ _ => 0x9000
  | .ldI _ => 0xA000
  | .jpV0 _ => 0xB000
  | .rnd _ _ => 0xC000
  | .drw _ _ _ => 0xD000
  | .skp _ => 0xE09E
  | .sknp _ => 0xE0A1
  | .ldVxDt _ => 0xF007
  | .ldVxK _ => 0xF00A
  | .ldDtVx _ => 0xF015
  | .ldStVx _ => 0xF018
  | .addI _ => 0xF01E
  | .ldF _ => 0xF029
  | .ldB _ => 0xF033
  | .ldStore _ => 0xF055
  | .ldLoad _ => 0xF065

/-! ### The host's reading of an opcode-table word -/

/-- The two bytes of the instruction whose bits are `w` (bit 0 the least significant of the word), in memory order; bits from `nbits`
up are 0. -/
def tableBytes (nbits w : Nat) : List Byte :=
  let word : Word := BitVec.ofNat 16 (w % 2 ^ nbits)
  [highByte word, lowByte word]

/-- The instruction the decoder reads from an opcode-table word, if any. -/
def decodeTableWord (nbits w : Nat) : Option Instr :=
  match decodeBytes (tableBytes nbits w) with
  | .instr i => some i
  | .illegal _ => none

end Sys2Proof
end

