-- ==== Sys2Proof/Config.lean ====
section
/-! DEFINITION. What an implementation fixes (the parameters of 00_scope R9) and the free values (41_alu R150, 44_keypad_timers R207).
The values the parameters take at reset stand in Machine/Defaults.lean. -/

namespace Sys2Proof

/-- `SYS_POLICY`: what a `0NNN` word does (R82, R101). -/
inductive SysPolicy where
  | fault
  | nop
deriving DecidableEq, Repr

/-- `SHIFT_SOURCE`: the register `8XY6` and `8XYE` shift (R139, R141). -/
inductive ShiftSource where
  | vx
  | vy
deriving DecidableEq, Repr

/-- `PROTECT_LOW`: what an instruction write below 0x200 does (R53). -/
inductive ProtectLow where
  | fault
  | allow
deriving DecidableEq, Repr

/-- `FONT_DIGIT_POLICY` and `KEY_INDEX_POLICY`: what a register value above 0xF does (R163, R200). -/
inductive RangePolicy where
  | fault
  | mask
deriving DecidableEq, Repr

/-- `KEYWAIT_TRIGGER`: what ends the wait of `FX0A` (R207). -/
inductive KeyTrigger where
  | level
  | pressEdge
deriving DecidableEq, Repr

/-- `JPV0_BASE`: the base of the `BNNN` target (R109). -/
inductive JumpBase where
  | index
  | nnn
deriving DecidableEq, Repr

/-- The parameters of R9, but for `IPF`, which has no default and is an argument of the frame loop (R264).
DESIGN CHOICE (log entry 1; safe): they stand in State, so that one `step` covers every legal choice of them. -/
structure Params where
  sysPolicy         : SysPolicy
  shiftSource       : ShiftSource
  vfResetLogic      : Bool
  loadStoreAdvanceI : Bool
  protectLow        : ProtectLow
  fontDigitPolicy   : RangePolicy
  keyIndexPolicy    : RangePolicy
  keyWaitTrigger    : KeyTrigger
  jpV0Base          : JumpBase
  /-- `FONT_BASE`, 0x000 to 0x1B0. -/
  fontBase          : Fin 0x1B1
  /-- `FONT_GLYPHS`: 16 glyphs of 5 bytes, 80 bytes in all (R57). -/
  fontGlyphs        : Vector (Vector Byte 5) 16
deriving DecidableEq, Repr

namespace Config

/-- `Draw8()` (R150): an arbitrary byte under no law. It has no body, so no proof can use a value of it; the argument is the
number of free values drawn before (State's counter). Log entry 3; safe. -/
opaque freeByte : Nat → Byte

/-- The number from which `ChooseKey(P)` takes its choice, modulo the size of P (R207). It has no body. Log entry 4; safe. -/
opaque freeChoice : Nat → Nat

end Config

end Sys2Proof
end

