-- ==== Sys2Proof/Machine/Defaults.lean ====
section
/-! DEFINITION. The default value of every parameter of 00_scope R9, and the default font of 20_memory R57. -/

namespace Sys2Proof.Machine

/-- `FONT_GLYPHS`: the 16 glyphs of R57, digit 0 first. PRESUMED (log entry 8; unsafe): the spec takes the bytes from general
knowledge. -/
def fontGlyphs : Vector (Vector Byte 5) 16 :=
  (#v[#v[0xF0, 0x90, 0x90, 0x90, 0xF0], #v[0x20, 0x60, 0x20, 0x20, 0x70],
      #v[0xF0, 0x10, 0xF0, 0x80, 0xF0], #v[0xF0, 0x10, 0xF0, 0x10, 0xF0]] : Vector (Vector Byte 5) 4) ++
  (#v[#v[0x90, 0x90, 0xF0, 0x10, 0x10], #v[0xF0, 0x80, 0xF0, 0x10, 0xF0],
      #v[0xF0, 0x80, 0xF0, 0x90, 0xF0], #v[0xF0, 0x10, 0x20, 0x40, 0x40]] : Vector (Vector Byte 5) 4) ++
  (#v[#v[0xF0, 0x90, 0xF0, 0x90, 0xF0], #v[0xF0, 0x90, 0xF0, 0x10, 0xF0],
      #v[0xF0, 0x90, 0xF0, 0x90, 0x90], #v[0xE0, 0x90, 0xE0, 0x90, 0xE0]] : Vector (Vector Byte 5) 4) ++
  (#v[#v[0xF0, 0x80, 0x80, 0x80, 0xF0], #v[0xE0, 0x90, 0x90, 0x90, 0xE0],
      #v[0xF0, 0x80, 0xF0, 0x80, 0xF0], #v[0xF0, 0x80, 0xF0, 0x80, 0x80]] : Vector (Vector Byte 5) 4)

/-- The defaults of R9. Log entry 2. -/
def defaultParams : Params where
  sysPolicy := .fault
  shiftSource := .vx
  vfResetLogic := false
  loadStoreAdvanceI := false
  protectLow := .fault
  fontDigitPolicy := .mask
  keyIndexPolicy := .fault
  keyWaitTrigger := .level
  jpV0Base := .index
  fontBase := 0x000
  fontGlyphs := fontGlyphs

end Sys2Proof.Machine
end

