-- ==== Sys2Proof/Machine/State.lean ====
section
/-! DEFINITION. The machine's state (10_state R20), the reasons of its outcomes, and reset (R36). -/

namespace Sys2Proof.Machine

/-- The fault causes of 60_exceptions R220, in the order of their codes 1 to 8. -/
inductive FaultCause where
  | fetchOutOfBounds
  | illegalInstruction
  | stackOverflow
  | stackUnderflow
  | memOutOfBounds
  | writeProtected
  | keyIndexOutOfRange
  | fontDigitOutOfRange
deriving DecidableEq, Repr

/-- The fault record (10_state R33). -/
structure FaultRecord where
  cause  : FaultCause
  /-- The address of the faulting instruction. -/
  pc     : Word
  /-- The instruction word; none for a fetch fault. -/
  opcode : Option Word
  /-- The offending address of a memory fault, a natural number: it may exceed 16 bits. -/
  addr   : Option Nat
  /-- The offending register value of a key or font fault. -/
  value  : Option Byte
deriving DecidableEq, Repr

/-- The executor's sub-state (10_state R32). -/
inductive Mode where
  | running
  | awaitingKey (x : Reg)
  | faulted (f : FaultRecord)
deriving DecidableEq, Repr

/-- Memory: the bytes that differ from the reset contents, by strictly rising address (20_memory R50; log entry 7). -/
abbrev Memory := List Host.Cell

/-- The display: 32 rows of 64 pixels, `disp[row][col]`, true for on (10_state R30). -/
abbrev Display := Vector (Vector Bool 64) 32

/-- The core's state (10_state R20), with two fields of the model's own: `params` (log entry 1) and `draws` (log entry 3). -/
structure State where
  /-- The parameters of 00_scope R9; nothing writes them. -/
  params     : Params
  mem        : Memory
  /-- V0 to VF (R21). -/
  v          : Vector Byte 16
  /-- The index register I (R24). -/
  i          : Word
  pc         : Word
  /-- The number of stack entries in use, 0 to 16 (R27). -/
  sp         : Fin 17
  stack      : Vector Word 16
  /-- The delay timer DT (R29). -/
  dt         : Byte
  /-- The sound timer ST (R29). -/
  st         : Byte
  disp       : Display
  /-- The keypad, written only by the host (R31). -/
  keys       : Vector Bool 16
  mode       : Mode
  /-- The keys down at the last check of a wait, used only under `KEYWAIT_TRIGGER = press_edge` (R38). -/
  keysAtWait : Vector Bool 16
  /-- How many free values have been drawn: the argument of `Config.freeByte` and `Config.freeChoice`. -/
  draws      : Nat
deriving DecidableEq, Repr

/-- Faults in the sense of the host's interface. There are none: every fault the spec gives the core is taken as a next state with
`mode` faulted (R221, R224; log entry 5; safe), so the type is empty and no step can answer `fault`. -/
inductive Fault : Type
deriving DecidableEq, Repr

/-- What is turned away with no state change. -/
inductive Refusal where
  /-- Raised by an arm of `exec` for an instruction that has no meaning yet; no arm does so. Safe. -/
  | notModelled (mnemonic : String)
  /-- Raised by the host operation `load_rom` on more than 3584 bytes (R266); never by a step. Safe. -/
  | romTooLarge
  /-- Raised by the host operation `set_key` with k at least 16 (R244); never by a step. Safe. -/
  | keyOutOfRange
deriving DecidableEq, Repr

/-- What a step, an instruction or a host operation answers. -/
abbrev Result := Host.Outcome State Fault Refusal

/-- The state after reset under given parameters (R36, R260). -/
def State.resetWith (p : Params) : State where
  params := p
  mem := []
  v := Vector.replicate 16 0
  i := 0x0000
  pc := 0x0200
  sp := 0
  stack := Vector.replicate 16 0
  dt := 0
  st := 0
  disp := Vector.replicate 32 (Vector.replicate 64 false)
  keys := Vector.replicate 16 false
  mode := .running
  keysAtWait := Vector.replicate 16 false
  draws := 0

/-- The state after reset under the default parameters. -/
def State.reset : State := State.resetWith defaultParams

end Sys2Proof.Machine
end

