-- ==== Sys2Proof/Machine/Ops.lean ====
section
/-! DEFINITION. The named operations over memory and registers, the access checks, and taking a fault, which is this hardware's only
exception entry (60_exceptions R221, R227); there is no return from it but reset (R228). -/

namespace Sys2Proof.Machine

/-! ### Memory (20_memory) -/

/-- The size of memory (R50). -/
def memSize : Nat := 4096

/-- The first address an instruction may write under `PROTECT_LOW = fault` (R53). -/
def programBase : Nat := 0x200

/-- The reset contents of a byte, which is what an address memory does not list reads as: the font's 80 bytes at `FONT_BASE`, 0
elsewhere (R36, R57). -/
def resetByte (p : Params) (a : Nat) : Byte :=
  if h : p.fontBase.val ≤ a ∧ a < p.fontBase.val + 80 then
    (p.fontGlyphs[(a - p.fontBase.val) / 5]'(by omega))[(a - p.fontBase.val) % 5]'(by omega)
  else 0

/-- The byte listed at an address, if any. -/
def Memory.lookup : Memory → Nat → Option Byte
  | [], _ => none
  | (k, b) :: m, a => if k = a then some b else Memory.lookup m a

/-- The memory without an entry at an address. -/
def Memory.erase : Memory → Nat → Memory
  | [], _ => []
  | (k, b) :: m, a => if k = a then Memory.erase m a else (k, b) :: Memory.erase m a

/-- The memory with an entry at an address, in its place by address. -/
def Memory.insert : Memory → Nat → Byte → Memory
  | [], a, v => [(a, v)]
  | (k, b) :: m, a, v =>
    if a < k then (a, v) :: (k, b) :: m
    else if a = k then (a, v) :: m
    else (k, b) :: Memory.insert m a v

/-- `MemRead(a, 1)`; callers check the address first (log entry 18). -/
def Memory.read (p : Params) (m : Memory) (a : Nat) : Byte := (Memory.lookup m a).getD (resetByte p a)

/-- `MemWrite(a, 1, v)`: writing the byte an unlisted address reads as removes the entry. -/
def Memory.write (p : Params) (m : Memory) (a : Nat) (v : Byte) : Memory :=
  if v = resetByte p a then Memory.erase m a else Memory.insert m a v

/-- The canonical form: addresses strictly rising and inside memory, no entry equal to the reset contents. -/
def Memory.wf (p : Params) (m : Memory) : Bool :=
  decide (m.Pairwise fun a b => a.1 < b.1) && m.all fun c => decide (c.1 < memSize) && decide (c.2 ≠ resetByte p c.1)

def State.readByte (s : State) (a : Nat) : Byte := Memory.read s.params s.mem a

def State.writeByte (s : State) (a : Nat) (b : Byte) : State := { s with mem := Memory.write s.params s.mem a b }

/-- `MemRead(a, n)`: lowest address first (00_scope R12). -/
def State.readBytes (s : State) (a : Nat) : Nat → List Byte
  | 0 => []
  | n + 1 => s.readByte a :: State.readBytes s (a + 1) n

/-- `MemWrite(a, n, v)`: ascending order (00_scope R12). -/
def State.writeBytes (s : State) (a : Nat) : List Byte → State
  | [] => s
  | b :: bs => State.writeBytes (s.writeByte a b) (a + 1) bs

/-! ### Registers -/

/-- `V[x]`. -/
def State.getV (s : State) (x : Reg) : Byte := s.v[x.val]

/-- `V[x] <- b`. -/
def State.setV (s : State) (x : Reg) (b : Byte) : State := { s with v := s.v.set x.val b }

/-- `pc <- p + 2`: what every instruction does that sets no other pc (10_state R26). -/
def State.advance (s : State) : State := { s with pc := s.pc + 2 }

/-- A skip: `pc <- p + 4` when the condition holds, else `p + 2` (40_control_flow R100). -/
def State.skipIf (s : State) (cond : Bool) : State := { s with pc := if cond then s.pc + 4 else s.pc + 2 }

/-- `pc <- zext_16(nnn)` (R103). -/
def State.jumpTo (s : State) (nnn : Addr12) : State := { s with pc := nnn.setWidth 16 }

/-! ### Free values -/

/-- The byte `Draw8()` gives in this state (41_alu R150). -/
def State.drawnByte (s : State) : Byte := Config.freeByte s.draws

/-- The free number `ChooseKey` takes its choice from (44_keypad_timers R207). -/
def State.drawnChoice (s : State) : Nat := Config.freeChoice s.draws

/-- The next draw is a fresh one. -/
def State.countDraw (s : State) : State := { s with draws := s.draws + 1 }

/-! ### Taking a fault (60_exceptions R221) -/

/-- `raise Fault(cause, info)`: `Mode` becomes `Faulted`, with the address of the faulting instruction, and nothing else changes (R221,
R223). -/
def State.raise (s : State) (cause : FaultCause) (opcode : Option Word) (addr : Option Nat) (value : Option Byte) : State :=
  { s with mode := .faulted { cause := cause, pc := s.pc, opcode := opcode, addr := addr, value := value } }

/-- A fault raised by an instruction: the word it records is the instruction's own (log entry 6). -/
def faultIn (i : Instr) (s : State) (cause : FaultCause) (addr : Option Nat) (value : Option Byte) : Result :=
  .next (s.raise cause (some (encode i)) addr value)

/-! ### Access checks (20_memory R52, R53; 42_index_memory R160) -/

/-- The kind of a data access. -/
inductive Access where
  | read
  | write
deriving DecidableEq, Repr

/-- The check of one byte: the cause it fails with, if it does. -/
def checkByte (p : Params) (kind : Access) (a : Nat) : Option FaultCause :=
  if memSize ≤ a then some .memOutOfBounds
  else if kind = .write ∧ p.protectLow = .fault ∧ a < programBase then some .writeProtected
  else none

/-- `CheckRange(a0, n, kind)`: the first failing address in ascending order, with its cause (R160). -/
def checkRange (p : Params) (kind : Access) (a : Nat) : Nat → Option (FaultCause × Nat)
  | 0 => none
  | n + 1 =>
    match checkByte p kind a with
    | some c => some (c, a)
    | none => checkRange p kind (a + 1) n

/-- An instruction's access to `n` bytes from `a`: the fault of the first failing address, or the state `t` of its effect. -/
def guardRange (i : Instr) (kind : Access) (a n : Nat) (s t : State) : Result :=
  match checkRange s.params kind a n with
  | some (c, bad) => faultIn i s c (some bad) none
  | none => .next t

end Sys2Proof.Machine
end

