-- ==== Sys2Proof/Machine/Flags.lean ====
section
/-! DEFINITION. Every flag computation (10_state R23, 41_alu R130, R151): from the unreduced values, written to VF last. -/

namespace Sys2Proof.Machine

/-- VF's value for a condition: 1 or 0. -/
def flagByte (b : Bool) : Byte := if b then 1 else 0

/-- The carry of `8XY4`: the sum exceeds 255 (R137). -/
def carryOut (a b : Byte) : Bool := decide (255 < a.toNat + b.toNat)

/-- NOT borrow of `a - b`: `a ≥ b` (R138, R140). -/
def notBorrow (a b : Byte) : Bool := decide (b.toNat ≤ a.toNat)

/-- The bit `src >> 1` shifts out (R139). -/
def shiftedOutRight (src : Byte) : Bool := src.getLsbD 0

/-- The bit `src << 1` shifts out (R141). -/
def shiftedOutLeft (src : Byte) : Bool := src.getLsbD 7

/-- `V[F] <- flag`. -/
def State.setFlag (s : State) (b : Bool) : State := s.setV regF (flagByte b)

/-- A result and its flag: the result first, the flag last, so that with x = F the flag stays (R130). -/
def State.setResultFlag (s : State) (x : Reg) (r : Byte) (b : Bool) : State := (s.setV x r).setFlag b

/-- What `8XY1`, `8XY2` and `8XY3` do to VF after their result (R134): cleared under `VF_RESET_LOGIC`, else untouched. -/
def State.resetLogicFlag (s : State) : State := if s.params.vfResetLogic then s.setFlag false else s

end Sys2Proof.Machine
end

