-- ==== Sys2Proof/Machine/Operands.lean ====
section
/-! DEFINITION. The operand forms: how an instruction gets the values it works on (30_encoding R72; 42_index_memory R167). -/

namespace Sys2Proof.Machine

/-- The value a shift works on: Vx, or Vy under `SHIFT_SOURCE = Vy` (R139, R141). -/
def State.shiftOperand (s : State) (x y : Reg) : Byte :=
  match s.params.shiftSource with
  | .vx => s.getV x
  | .vy => s.getV y

/-- A register value that must name one of 16 things: its own low nibble's number, or none where the policy makes a value above 0xF a
fault (R163, R200). -/
def inSixteen (policy : RangePolicy) (v : Byte) : Option (Fin 16) :=
  if h : v.toNat < 16 then some ⟨v.toNat, h⟩
  else
    match policy with
    | .fault => none
    | .mask => some ⟨v.toNat % 16, Nat.mod_lt _ (by decide)⟩

/-- `KeyIndex(v)` (R200); none where it faults. -/
def State.keyIndex (s : State) (v : Byte) : Option Key := inSixteen s.params.keyIndexPolicy v

/-- The digit of `FX29` (R163); none where it faults. -/
def State.fontDigit (s : State) (v : Byte) : Option (Fin 16) := inSixteen s.params.fontDigitPolicy v

/-- `FONT_BASE + 5 * d` (R57, R163). -/
def State.glyphAddr (s : State) (d : Fin 16) : Word := BitVec.ofNat 16 (s.params.fontBase.val + 5 * d.val)

/-- The level of a key (R31). -/
def State.keyDown (s : State) (k : Key) : Bool := s.keys[k.val]

/-- The target of `BNNN`, a natural number, unreduced (R109). -/
def State.jumpTarget (s : State) (nnn : Addr12) : Nat :=
  match s.params.jpV0Base with
  | .index => s.i.toNat + (s.getV 0).toNat
  | .nnn => nnn.toNat + (s.getV 0).toNat

/-- The address in I, where every data access begins (R167). -/
def State.dataAddr (s : State) : Nat := s.i.toNat

/-- The three decimal digits of a byte, hundreds first (R164; log entry 15). -/
def bcdDigits (v : Byte) : List Byte :=
  [BitVec.ofNat 8 (v.toNat / 100), BitVec.ofNat 8 (v.toNat / 10 % 10), BitVec.ofNat 8 (v.toNat % 10)]

/-- V0 to Vx, in order: the bytes of `FX55` (R165). -/
def State.regsUpTo (s : State) (x : Reg) : List Byte := (s.v.toList).take (x.val + 1)

/-- `V[k] <- Mem[a + k]` for k in 0..x; the registers above x stay (R166). -/
def State.loadRegs (s : State) (a : Nat) (x : Reg) : State :=
  { s with v := Vector.ofFn fun k : Reg => if k.val ≤ x.val then s.readByte (a + k.val) else s.getV k }

/-- I after `FX55` and `FX65`: moved past the bytes under `LOADSTORE_ADVANCE_I`, else unchanged (R165, R166). -/
def State.advanceIndex (s : State) (x : Reg) : State :=
  if s.params.loadStoreAdvanceI then { s with i := s.i + BitVec.ofNat 16 (x.val + 1) } else s

end Sys2Proof.Machine
end

