-- ==== Sys2Proof/Machine/ControlFlow.lean ====
section
/-! DEFINITION. The control-flow instructions (40_control_flow). In a meaning, `s.pc` is p, the address the instruction was fetched
from (10_state R25). -/

namespace Sys2Proof.Machine

/-- `0NNN` (R101). -/
def execSys (nnn : Addr12) (s : State) : Result :=
  match s.params.sysPolicy with
  | .fault => faultIn (.sys nnn) s .illegalInstruction none none
  | .nop => .next s.advance

/-- `00EE` (R102): the popped entry keeps its value. -/
def execRet (s : State) : Result :=
  if h : 0 < s.sp.val then
    .next { s with sp := ⟨s.sp.val - 1, by omega⟩, pc := s.stack[s.sp.val - 1]'(by omega) }
  else faultIn .ret s .stackUnderflow none none

/-- `1NNN` (R103). -/
def execJp (nnn : Addr12) (s : State) : Result := .next (s.jumpTo nnn)

/-- `2NNN` (R104): the pushed address is that of the instruction after the CALL. -/
def execCall (nnn : Addr12) (s : State) : Result :=
  if h : s.sp.val < 16 then
    .next (State.jumpTo { s with stack := s.stack.set s.sp.val (s.pc + 2), sp := ⟨s.sp.val + 1, by omega⟩ } nnn)
  else faultIn (.call nnn) s .stackOverflow none none

/-- `3XNN` (R105). -/
def execSeImm (x : Reg) (nn : Byte) (s : State) : Result := .next (s.skipIf (s.getV x == nn))

/-- `4XNN` (R106). -/
def execSneImm (x : Reg) (nn : Byte) (s : State) : Result := .next (s.skipIf (s.getV x != nn))

/-- `5XY0` (R107). -/
def execSeReg (x y : Reg) (s : State) : Result := .next (s.skipIf (s.getV x == s.getV y))

/-- `9XY0` (R108). -/
def execSneReg (x y : Reg) (s : State) : Result := .next (s.skipIf (s.getV x != s.getV y))

/-- `BNNN` (R109): a target that does not fit the 16-bit pc faults at the jump. -/
def execJpV0 (nnn : Addr12) (s : State) : Result :=
  if s.jumpTarget nnn ≤ 0xFFFF then .next { s with pc := BitVec.ofNat 16 (s.jumpTarget nnn) }
  else faultIn (.jpV0 nnn) s .fetchOutOfBounds (some (s.jumpTarget nnn)) none

end Sys2Proof.Machine
end

