-- ==== Sys2Proof/Machine/Display.lean ====
section
/-! DEFINITION. The display instructions (43_display). -/

namespace Sys2Proof.Machine

/-- Every pixel off. -/
def blankDisplay : Display := Vector.replicate 32 (Vector.replicate 64 false)

/-- `Disp[row][col]`. -/
def pixelAt (d : Display) (row : Fin 32) (col : Fin 64) : Bool := d[row.val][col.val]

/-- `Disp[row][col] <- Disp[row][col] ^ 1`. -/
def flipPixel (d : Display) (row : Fin 32) (col : Fin 64) : Display :=
  d.set row.val (d[row.val].set col.val (!pixelAt d row col))

/-- The display and the collision so far, while a sprite is drawn. -/
structure Blit where
  disp     : Display
  collided : Bool
deriving DecidableEq, Repr

/-- A row of the display, modulo 32 (R180). -/
def wrapRow (n : Nat) : Fin 32 := ⟨n % 32, Nat.mod_lt _ (by decide)⟩

/-- A column of the display, modulo 64 (R180). -/
def wrapCol (n : Nat) : Fin 64 := ⟨n % 64, Nat.mod_lt _ (by decide)⟩

/-- One bit of a sprite row: bit 7 - c is the pixel c columns from the left (R180). A set bit flips its pixel, and an on pixel that turns
off is a collision (R182). -/
def blitBit (x0 row : Nat) (b : Byte) (z : Blit) (c : Nat) : Blit :=
  if b.getLsbD (7 - c) then
    { disp := flipPixel z.disp (wrapRow row) (wrapCol (x0 + c))
      collided := z.collided || pixelAt z.disp (wrapRow row) (wrapCol (x0 + c)) }
  else z

/-- One byte of a sprite: columns 0 to 7. -/
def blitRow (x0 row : Nat) (b : Byte) (z : Blit) : Blit := (List.range 8).foldl (blitBit x0 row b) z

/-- The sprite's bytes, each a row below the one before (R182). -/
def blitSprite (x0 y0 : Nat) : List Byte → Blit → Blit
  | [], z => z
  | b :: bs, z => blitSprite x0 (y0 + 1) bs (blitRow x0 y0 b z)

/-- `00E0` (R181). -/
def execCls (s : State) : Result := .next (State.advance { s with disp := blankDisplay })

/-- The display and collision after drawing n rows at (Vx, Vy). -/
def State.drawn (s : State) (x y : Reg) (n : Nibble) : Blit :=
  blitSprite (s.getV x).toNat (s.getV y).toNat (s.readBytes s.dataAddr n.toNat) { disp := s.disp, collided := false }

/-- `DXYN` (R182): the coordinates are read before VF is written, and every byte is checked before any pixel changes. -/
def execDrw (x y : Reg) (n : Nibble) (s : State) : Result :=
  guardRange (.drw x y n) .read s.dataAddr n.toNat s
    (State.advance (State.setFlag { s with disp := (s.drawn x y n).disp } (s.drawn x y n).collided))

end Sys2Proof.Machine
end

