-- ==== Sys2Proof/Machine/IndexMemory.lean ====
section
/-! DEFINITION. Index register and memory transfer (42_index_memory). -/

namespace Sys2Proof.Machine

/-- `ANNN` (R161). -/
def execLdI (nnn : Addr12) (s : State) : Result := .next (State.advance { s with i := nnn.setWidth 16 })

/-- `FX1E` (R162): wraps at 16 bits, no flag. -/
def execAddI (x : Reg) (s : State) : Result := .next (State.advance { s with i := s.i + (s.getV x).setWidth 16 })

/-- `FX29` (R163). -/
def execLdF (x : Reg) (s : State) : Result :=
  match s.fontDigit (s.getV x) with
  | some d => .next (State.advance { s with i := s.glyphAddr d })
  | none => faultIn (.ldF x) s .fontDigitOutOfRange none (some (s.getV x))

/-- `FX33` (R164). -/
def execLdB (x : Reg) (s : State) : Result :=
  guardRange (.ldB x) .write s.dataAddr 3 s (s.writeBytes s.dataAddr (bcdDigits (s.getV x))).advance

/-- `FX55` (R165). -/
def execLdStore (x : Reg) (s : State) : Result :=
  guardRange (.ldStore x) .write s.dataAddr (x.val + 1) s
    ((s.writeBytes s.dataAddr (s.regsUpTo x)).advanceIndex x).advance

/-- `FX65` (R166). -/
def execLdLoad (x : Reg) (s : State) : Result :=
  guardRange (.ldLoad x) .read s.dataAddr (x.val + 1) s ((s.loadRegs s.dataAddr x).advanceIndex x).advance

end Sys2Proof.Machine
end

