-- ==== Sys2Proof/Machine/KeypadTimers.lean ====
section
/-! DEFINITION. Keypad and timer instructions, and the wait check of `FX0A` (44_keypad_timers). -/

namespace Sys2Proof.Machine

/-- `EX9E` (R201). -/
def execSkp (x : Reg) (s : State) : Result :=
  match s.keyIndex (s.getV x) with
  | some k => .next (s.skipIf (s.keyDown k))
  | none => faultIn (.skp x) s .keyIndexOutOfRange none (some (s.getV x))

/-- `EXA1` (R202). -/
def execSknp (x : Reg) (s : State) : Result :=
  match s.keyIndex (s.getV x) with
  | some k => .next (s.skipIf (!s.keyDown k))
  | none => faultIn (.sknp x) s .keyIndexOutOfRange none (some (s.getV x))

/-- `FX07` (R203). -/
def execLdVxDt (x : Reg) (s : State) : Result := .next (s.setV x s.dt).advance

/-- `KeysAtWait <- Keys`, under `KEYWAIT_TRIGGER = press_edge` only (R38, R204, R207). -/
def State.latchKeys (s : State) : State :=
  match s.params.keyWaitTrigger with
  | .level => s
  | .pressEdge => { s with keysAtWait := s.keys }

/-- `FX0A`, the entry step (R204): no key is tested, and pc stays. -/
def execLdVxK (x : Reg) (s : State) : Result := .next { s.latchKeys with mode := .awaitingKey x }

/-- `FX15` (R205). -/
def execLdDtVx (x : Reg) (s : State) : Result := .next (State.advance { s with dt := s.getV x })

/-- `FX18` (R206). -/
def execLdStVx (x : Reg) (s : State) : Result := .next (State.advance { s with st := s.getV x })

/-! ### The wait check (R207) -/

/-- Whether a key is in P: down, and under press_edge not down at the last check. -/
def State.keyEndsWait (s : State) (k : Key) : Bool :=
  match s.params.keyWaitTrigger with
  | .level => s.keyDown k
  | .pressEdge => s.keyDown k && !s.keysAtWait[k.val]

/-- P, lowest key first. -/
def State.waitKeys (s : State) : List Key := (List.finRange 16).filter s.keyEndsWait

/-- `ChooseKey(P)`: any member of the nonempty list, as the free number n says (R207; log entry 4). -/
def chooseKey (k : Key) (ks : List Key) (n : Nat) : Key :=
  (k :: ks)[n % (ks.length + 1)]'(by simpa using Nat.mod_lt n (Nat.succ_pos ks.length))

/-- The end of a wait: the key's number goes to Vx, pc passes the `FX0A`, and the core runs again. -/
def State.endWait (s : State) (x : Reg) (k : Key) : State :=
  State.advance (State.setV { s.countDraw with mode := .running } x (BitVec.ofNat 8 k.val))

/-- A step while waiting to fill Vx (R207): no instruction is fetched. -/
def waitCheck (x : Reg) (s : State) : Result :=
  match s.waitKeys with
  | [] => .next s.latchKeys
  | k :: ks => .next (s.latchKeys.endWait x (chooseKey k ks s.drawnChoice))

end Sys2Proof.Machine
end

