-- ==== Sys2Proof/Machine/Fetch.lean ====
section
/-! DEFINITION. Instruction fetch, and the steps that end before execution (20_memory R51; 70_reset_and_hazards R263). -/

namespace Sys2Proof.Machine

/-- What a fetch gives. -/
inductive Fetched where
  | word (w : Word)
  /-- The first address of the two that is outside memory. -/
  | outOfBounds (addr : Nat)
deriving DecidableEq, Repr

/-- The two bytes at pc, big-endian (R51); no write check, no alignment (R53, R55). -/
def State.fetch (s : State) : Fetched :=
  match checkRange s.params .read s.pc.toNat 2 with
  | some (_, bad) => .outOfBounds bad
  | none => .word (wordOfBytes (s.readByte s.pc.toNat) (s.readByte (s.pc.toNat + 1)))

/-- A fetch fault: no opcode is recorded (R51, R220). -/
def fetchFault (s : State) (bad : Nat) : Result := .next (s.raise .fetchOutOfBounds none (some bad) none)

/-- A decode fault (R81, R263). -/
def decodeFault (s : State) (w : Word) : Result := .next (s.raise .illegalInstruction (some w) none none)

/-- A step in `Faulted`: nothing (60_exceptions R224). -/
def faultedStep (s : State) : Result := .next s

/-- Two bytes stored by the host at pc, with the core running, so that the next step fetches them; a pc from which no instruction can be
fetched is first put at the program base (log entry 14). -/
def State.placeWord (s : State) (w : Word) : State :=
  let p : Word := if s.pc.toNat + 1 < memSize then s.pc else 0x200
  State.writeBytes { s with mode := .running, pc := p } p.toNat [highByte w, lowByte w]

end Sys2Proof.Machine
end

