-- ==== Sys2Proof/Machine/Step.lean ====
section
/-! DEFINITION. One step (70_reset_and_hazards R263). -/

namespace Sys2Proof.Machine

/-- Decode and execution of a fetched word (R263). -/
def runWord (w : Word) (s : State) : Host.Outcome State Fault Refusal :=
  match decode w with
  | .instr i => exec i s
  | .illegal _ => decodeFault s w

/-- `Step(r, kc)` of R263; the draws r and kc are free values the state numbers (log entries 3 and 4). -/
def step (s : State) : Host.Outcome State Fault Refusal :=
  match s.mode with
  | .faulted _ => faultedStep s
  | .awaitingKey x => waitCheck x s
  | .running =>
    match s.fetch with
    | .outOfBounds bad => fetchFault s bad
    | .word w => runWord w s

/-- The state with an opcode-table word where the next step fetches (log entry 14). -/
def State.withFetchWord (s : State) (nbits w : Nat) : State := s.placeWord (BitVec.ofNat 16 (w % 2 ^ nbits))

end Sys2Proof.Machine
end

