-- ==== Sys2Proof/Machine/HostOps.lean ====
section
/-! DEFINITION. The host's operations around `step` (70_reset_and_hazards R262 to R273; 60_exceptions R240 to R245). They are the moves
of the host between steps; `step` makes none of them (log entry 12). -/

namespace Sys2Proof.Machine

/-- One timer at a tick (R240). -/
def tickByte (t : Byte) : Byte := if t = 0 then 0 else t - 1

/-- `tick()` (R240), the same in every mode (R243). -/
def State.tick (s : State) : State := { s with dt := tickByte s.dt, st := tickByte s.st }

/-- `sound_active` (R242). -/
def State.soundActive (s : State) : Bool := decide (0 < s.st.toNat)

/-- `Keys[k] <- pressed` (R244). -/
def State.withKey (s : State) (k : Key) (pressed : Bool) : State := { s with keys := s.keys.set k.val pressed }

/-- `set_key(k, pressed)` (R244): a k of 16 or more fails and changes nothing. -/
def setKey (k : Nat) (pressed : Bool) (s : State) : Result :=
  if h : k < 16 then .next (s.withKey ⟨k, h⟩ pressed) else .refused .keyOutOfRange

/-- The largest ROM (00_scope R8). -/
def maxRom : Nat := 3584

/-- `load_rom(bytes)` (R265, R266), in any state (log entry 13). -/
def loadRom (bytes : List Byte) (s : State) : Result :=
  if bytes.length ≤ maxRom then .next { s.writeBytes programBase bytes with pc := 0x200 } else .refused .romTooLarge

/-- One pixel, as the host reads it (R245, R270). -/
def State.pixel (s : State) (row : Fin 32) (col : Fin 64) : Bool := pixelAt s.disp row col

/-- The fault record, as the host reads it (10_state R33). -/
def State.faultRecord (s : State) : Option FaultRecord :=
  match s.mode with
  | .faulted f => some f
  | .running => none
  | .awaitingKey _ => none

/-- The numbers R220 gives the causes. -/
def FaultCause.code : FaultCause → Nat
  | .fetchOutOfBounds => 1
  | .illegalInstruction => 2
  | .stackOverflow => 3
  | .stackUnderflow => 4
  | .memOutOfBounds => 5
  | .writeProtected => 6
  | .keyIndexOutOfRange => 7
  | .fontDigitOutOfRange => 8

/-- The code of the recorded fault, 0 (NONE) where there is none (R220). -/
def State.faultCode (s : State) : Nat :=
  match s.faultRecord with
  | some f => f.cause.code
  | none => 0

/-- The end of a run as R272 defines it: running, with a jump to its own address next. -/
def State.idle (s : State) : Bool :=
  decide (s.mode = .running) && decide (s.pc.toNat ≤ 0xFFE) && decide (s.fetch = .word (0x1000 ||| s.pc))

/-- The host's moves (R262, R273); the reads of the display, the sound output, the mode and the fault record change nothing and are the
functions above. -/
inductive HostOp where
  | reset
  | loadRom (bytes : List Byte)
  | step
  | tick
  | setKey (k : Nat) (pressed : Bool)
deriving DecidableEq, Repr

/-- `reset`: a fresh state of the same machine (R260). The count of free values goes on, so that a draw after a reset is not one made
before it (log entry 3). -/
def State.rebooted (s : State) : State := { State.resetWith s.params with draws := s.draws }

/-- One move of the host. -/
def hostOp (op : HostOp) (s : State) : Result :=
  match op with
  | .reset => .next s.rebooted
  | .loadRom bytes => loadRom bytes s
  | .step => step s
  | .tick => .next s.tick
  | .setKey k pressed => setKey k pressed s

/-- The moves that may fail: `load_rom` (R266) and `set_key` (R244). -/
def HostOp.mayFail : HostOp → Bool
  | .reset => false
  | .loadRom _ => true
  | .step => false
  | .tick => false
  | .setKey _ _ => true

/-- A run of the host: its moves, one at a time, each completely, in the order it issues them (R262). A move that fails changes nothing
(R244, R266), and the run goes on from the state it left; the error is the move's own answer, `hostOp`'s (log entry 20). -/
def hostOps : List HostOp → State → Result
  | [], s => .next s
  | op :: ops, s =>
    match hostOp op s with
    | .next t => hostOps ops t
    | .fault r => .fault r
    | .refused r => if op.mayFail then hostOps ops s else .refused r

/-! ### The frame loop (R264) -/

/-- The key updates that arrive in one gap between steps, in order (R264: "Key updates arrive between any two steps"). -/
abbrev KeyUpdates := List (Key × Bool)

/-- The state after some key updates; each is a `set_key` that succeeds. -/
def State.withKeys : State → KeyUpdates → State
  | s, [] => s
  | s, (k, pressed) :: us => State.withKeys (s.withKey k pressed) us

/-- One step of a frame, and the rest of the frame unless the core waits after it; `stop` is what the frame does then (R264). -/
def frameStepThen (s : State) (rest stop : State → Result) : Result :=
  match step s with
  | .fault r => .fault r
  | .refused r => .refused r
  | .next t =>
    match t.mode with
    | .awaitingKey _ => stop t
    | .running => rest t
    | .faulted _ => rest t

/-- The steps of one frame: at most `ipf`, none in `Faulted`, and none after a step that leaves the core waiting (R264). The n-th entry of
the key updates arrives just before the n-th step; what is left when the steps end arrives before the tick (log entry 19). -/
def frameSteps : Nat → List KeyUpdates → State → Result
  | 0, us, s => .next (s.withKeys us.flatten)
  | k + 1, us, s =>
    match s.faultRecord with
    | some _ => .next (s.withKeys us.flatten)
    | none =>
      frameStepThen (s.withKeys (us.headD [])) (frameSteps k us.tail) fun t => .next (t.withKeys us.tail.flatten)

/-- `Frame()` of R264 with `IPF = ipf` and the key updates that arrive during it: the steps, then one tick (log entries 17 and 19). -/
def frame (ipf : Nat) (us : List KeyUpdates) (s : State) : Result :=
  match frameSteps ipf us s with
  | .next t => .next t.tick
  | .fault r => .fault r
  | .refused r => .refused r

end Sys2Proof.Machine
end

