-- ==== Sys2Proof/Safety.lean ====
section
/-! DEFINITION. The terms statements are made in: the parts of a state and what it is to keep them, the words of the spec's encoding, the
checks of an access, the footprint of a sprite, and the machine's invariants. -/

namespace Sys2Proof.Safety

open Sys2Proof.Machine

/-! ### Frames -/

/-- Everything a state holds, part by part. -/
inductive Part where
  | reg (x : Reg)
  | index
  | pc
  | sp
  | stackEntry (k : Fin 16)
  | dt
  | st
  | pixel (row : Fin 32) (col : Fin 64)
  | key (k : Key)
  | mode
  | keyAtWait (k : Key)
  | byte (a : Nat)
  | params
  | draws
deriving DecidableEq, Repr

/-- The part is the same in both states; a byte of memory is compared by what a read of it gives. -/
def Kept (s t : State) : Part → Prop
  | .reg x => t.getV x = s.getV x
  | .index => t.i = s.i
  | .pc => t.pc = s.pc
  | .sp => t.sp = s.sp
  | .stackEntry k => t.stack[k.val] = s.stack[k.val]
  | .dt => t.dt = s.dt
  | .st => t.st = s.st
  | .pixel row col => t.pixel row col = s.pixel row col
  | .key k => t.keyDown k = s.keyDown k
  | .mode => t.mode = s.mode
  | .keyAtWait k => t.keysAtWait[k.val] = s.keysAtWait[k.val]
  | .byte a => t.readByte a = s.readByte a
  | .params => t.params = s.params
  | .draws => t.draws = s.draws

/-- The frame: every part is kept but those of which `changed` holds. -/
def KeptBut (s t : State) (changed : Part → Prop) : Prop := ∀ p : Part, ¬ changed p → Kept s t p

/-- The frame of an instruction that changes a few parts only. -/
def KeptButThese (s t : State) (parts : List Part) : Prop := KeptBut s t (· ∈ parts)

/-! ### Words, as 30_encoding R71 and R73 lay them out -/

/-- Format `A`: `f nnn`. -/
def wordA (f : Nat) (nnn : Addr12) : Word := BitVec.ofNat 16 (f * 0x1000 + nnn.toNat)
/-- Formats `XB` and `XS`: `f x nn`. -/
def wordXB (f : Nat) (x : Reg) (nn : Byte) : Word := BitVec.ofNat 16 (f * 0x1000 + x.val * 0x100 + nn.toNat)
/-- Formats `XY` and `XYN`: `f x y n`. -/
def wordXYN (f : Nat) (x y : Reg) (n : Nibble) : Word :=
  BitVec.ofNat 16 (f * 0x1000 + x.val * 0x100 + y.val * 0x10 + n.toNat)

/-- The word is the instruction's encoding and decodes to it. -/
abbrev Encodes (w : Word) (i : Instr) : Prop := encode i = w ∧ decode w = .instr i

/-- The next step fetches this word: the core runs, both bytes are inside memory, the first is the high byte (20_memory R51). -/
abbrev Fetches (s : State) (w : Word) : Prop :=
  s.mode = .running ∧ s.pc.toNat + 1 < memSize ∧
    s.readByte s.pc.toNat = highByte w ∧ s.readByte (s.pc.toNat + 1) = lowByte w

/-! ### Accesses -/

/-- An instruction may read the n bytes from I (20_memory R52). -/
abbrev Readable (s : State) (n : Nat) : Prop := s.i.toNat + n ≤ memSize

/-- An instruction may write the n bytes from I (20_memory R52, R53). -/
abbrev Writable (s : State) (n : Nat) : Prop :=
  s.i.toNat + n ≤ memSize ∧ (s.params.protectLow = .fault → programBase ≤ s.i.toNat)

/-! ### Sprites (43_display R180, R182) -/

/-- A set bit of the n-row sprite at I, drawn at (Vx, Vy), falls on the pixel: sprite row r and column c of the sprite, wrapped. -/
def SpriteCovers (s : State) (x y : Reg) (n : Nibble) (row : Fin 32) (col : Fin 64) : Prop :=
  ∃ r c : Nat, r < n.toNat ∧ c < 8 ∧
    row.val = ((s.getV y).toNat + r) % 32 ∧ col.val = ((s.getV x).toNat + c) % 64 ∧
    (s.readByte (s.i.toNat + r)).getLsbD (7 - c) = true

/-! ### Results -/

/-- pc moves on by n (10_state R26). The spec says nothing of a sum that does not fit pc, and no fetched instruction has one; nothing
is claimed there (log entry 11). -/
def Advances (s t : State) (n : Nat) : Prop := s.pc.toNat + n ≤ 0xFFFF → t.pc.toNat = s.pc.toNat + n

/-- pc after a skip on a condition, and the frame of a skip (40_control_flow R100). -/
def Skips (s t : State) (cond : Prop) : Prop :=
  (cond → Advances s t 4) ∧ (¬ cond → Advances s t 2) ∧ KeptButThese s t [.pc]

/-- A result in Vx and a flag in VF, the flag last, so that with x = F the flag is what stays (41_alu R130); pc moves past the
instruction and nothing else changes. -/
def ResultThenFlag (s t : State) (x : Reg) (result : Nat) (flag : Prop) : Prop :=
  (x ≠ regF → (t.getV x).toNat = result) ∧ (flag → t.getV regF = 1) ∧ (¬ flag → t.getV regF = 0) ∧
    Advances s t 2 ∧ KeptButThese s t [.reg x, .reg regF, .pc]

/-- A logic result in Vx; VF is cleared after it under `VF_RESET_LOGIC` and otherwise untouched (41_alu R134). -/
def LogicResult (s t : State) (x : Reg) (result : Byte) : Prop :=
  (s.params.vfResetLogic = false → t.getV x = result ∧ KeptButThese s t [.reg x, .pc]) ∧
    (s.params.vfResetLogic = true →
      (x ≠ regF → t.getV x = result) ∧ t.getV regF = 0 ∧ KeptButThese s t [.reg x, .reg regF, .pc]) ∧
    Advances s t 2

/-- The value a shift works on (41_alu R139). -/
def ShiftSourceIs (s : State) (x y : Reg) (src : Byte) : Prop :=
  (s.params.shiftSource = .vx → src = s.getV x) ∧ (s.params.shiftSource = .vy → src = s.getV y)

/-- The base of the `BNNN` target (40_control_flow R109). -/
def JumpBaseIs (s : State) (nnn : Addr12) (base : Nat) : Prop :=
  (s.params.jpV0Base = .index → base = s.i.toNat) ∧ (s.params.jpV0Base = .nnn → base = nnn.toNat)

/-- I after `FX55` and `FX65`: moved by x + 1 modulo 2^16 under `LOADSTORE_ADVANCE_I`, else unchanged (42_index_memory R165, R166). -/
def IndexAfter (s t : State) (x : Reg) : Prop :=
  (s.params.loadStoreAdvanceI = false → t.i = s.i) ∧
    (s.params.loadStoreAdvanceI = true → t.i.toNat = (s.i.toNat + x.val + 1) % 0x10000)

/-- The instruction faults: Mode becomes Faulted with this record and nothing else changes (60_exceptions R221). -/
def FaultsWith (i : Instr) (s : State) (cause : FaultCause) (opcode : Word) (addr : Option Nat) (value : Option Byte) : Prop :=
  exec i s = .next { s with mode := .faulted { cause := cause, pc := s.pc, opcode := some opcode, addr := addr, value := value } }

/-! ### Keys -/

/-- The key is in P of the wait check (44_keypad_timers R207). -/
abbrev EndsWait (s : State) (k : Key) : Prop :=
  s.keyDown k = true ∧ (s.params.keyWaitTrigger = .pressEdge → s.keysAtWait[k.val] = false)

/-- `KeysAtWait <- Keys` under press_edge, untouched otherwise (10_state R38). -/
def Latched (s t : State) : Prop :=
  (s.params.keyWaitTrigger = .level → t.keysAtWait = s.keysAtWait) ∧
    (s.params.keyWaitTrigger = .pressEdge → t.keysAtWait = s.keys)

/-! ### Faults by instruction (60_exceptions R222) -/

/-- The causes R222 lists for an instruction once it is fetched and decoded. -/
def possibleCauses : Instr → List FaultCause
  | .cls => []
  | .ret => [.stackUnderflow]
  | .sys _ => [.illegalInstruction]
  | .jp _ => []
  | .call _ => [.stackOverflow]
  | .seImm _ _ => []
  | .sneImm _ _ => []
  | .seReg _ _ => []
  | .ldImm _ _ => []
  | .addImm _ _ => []
  | .ldReg _ _ => []
  | .orReg _ _ => []
  | .andReg _ _ => []
  | .xorReg _ _ => []
  | .addReg _ _ => []
  | .subReg _ _ => []
  | .shr _ _ => []
  | .subn _ _ => []
  | .shl _ _ => []
  | .sneReg _ _ => []
  | .ldI _ => []
  | .jpV0 _ => [.fetchOutOfBounds]
  | .rnd _ _ => []
  | .drw _ _ _ => [.memOutOfBounds]
  | .skp _ => [.keyIndexOutOfRange]
  | .sknp _ => [.keyIndexOutOfRange]
  | .ldVxDt _ => []
  | .ldVxK _ => []
  | .ldDtVx _ => []
  | .ldStVx _ => []
  | .addI _ => []
  | .ldF _ => [.fontDigitOutOfRange]
  | .ldB _ => [.memOutOfBounds, .writeProtected]
  | .ldStore _ => [.memOutOfBounds, .writeProtected]
  | .ldLoad _ => [.memOutOfBounds]

/-! ### Who writes what (10_state R22, R23, R24) -/

/-- The general registers an instruction may write: its destination, V0..Vx for `FX65`, and VF where R23 names the instruction. `FX0A`
writes its register at the end of the wait, not in its entry step (R204, R207). -/
def writesReg (p : Params) : Instr → Reg → Prop
  | .ldImm x _, r => r = x
  | .addImm x _, r => r = x
  | .ldReg x _, r => r = x
  | .orReg x _, r => r = x ∨ (p.vfResetLogic = true ∧ r = regF)
  | .andReg x _, r => r = x ∨ (p.vfResetLogic = true ∧ r = regF)
  | .xorReg x _, r => r = x ∨ (p.vfResetLogic = true ∧ r = regF)
  | .addReg x _, r => r = x ∨ r = regF
  | .subReg x _, r => r = x ∨ r = regF
  | .shr x _, r => r = x ∨ r = regF
  | .subn x _, r => r = x ∨ r = regF
  | .shl x _, r => r = x ∨ r = regF
  | .rnd x _, r => r = x
  | .drw _ _ _, r => r = regF
  | .ldVxDt x, r => r = x
  | .ldLoad x, r => r ≤ x
  | _, _ => False

/-- The instructions that write I (R24). -/
def writesIndex (p : Params) : Instr → Prop
  | .ldI _ => True
  | .addI _ => True
  | .ldF _ => True
  | .ldStore _ => p.loadStoreAdvanceI = true
  | .ldLoad _ => p.loadStoreAdvanceI = true
  | _ => False

/-! ### Invariants -/

/-- What holds of every state of a run: memory keeps its canonical form (log entry 7); while the core waits, pc is the address of an
`FX0A` that was fetched (44_keypad_timers R204); a recorded fault names the address pc still holds (60_exceptions R223); and every return
address in use is at most 0x1000 (40_control_flow R104). -/
structure Inv (s : State) : Prop where
  memory  : Memory.wf s.params s.mem = true
  waiting : ∀ x, s.mode = .awaitingKey x → s.pc.toNat + 1 < memSize
  faultAt : ∀ f, s.mode = .faulted f → f.pc = s.pc
  returns : ∀ k : Fin 16, k.val < s.sp.val → (s.stack[k.val]).toNat ≤ 0x1000

/-- "no write below 0x200 after initialization" (20_memory R53): the interpreter region holds its reset contents. -/
def LowMemoryFixed (s : State) : Prop := ∀ a, a < programBase → s.readByte a = resetByte s.params a

/-- A move the host may make in this state: `load_rom` only while the core runs (70_reset_and_hazards R267, R273). -/
def Allowed (op : HostOp) (s : State) : Prop := ∀ bytes, op = .loadRom bytes → s.mode = .running

end Sys2Proof.Safety
end

