-- ==== Sys2Proof/Certificates/Slice0/Obligations.lean ====
section
/-! DEFINITION. The statements for the provers. Each docstring names the rules of spec/ it formalises, and the model's or the spec's own
choice where it rests on one. -/

open Sys2Proof Sys2Proof.Machine Sys2Proof.Safety

/-! ### Encoding (30_encoding) -/

/-- R74, R80: no bit of an encoding is dropped. Every well-formed instruction, at every operand, decodes from its word. -/
def Obligations.DecodeOfEncode : Prop :=
  ∀ i : Instr, i.wellFormed = true → decode (encode i) = .instr i

/-- R74, R80: a word that decodes to an instruction is that instruction's word, and the instruction is well-formed. -/
def Obligations.EncodeOfDecode : Prop :=
  ∀ (w : Word) (i : Instr), decode w = .instr i → encode i = w ∧ i.wellFormed = true

/-- R80, row by row, with R71 and R73 for the places of the fields: the word of each instruction, at every operand, and its decoding. The
bit patterns are general knowledge, not the source's (the spec's decision D2, log entry 9). -/
def Obligations.EncodingsOfTheTable : Prop :=
  ∀ (nnn : Addr12) (x y : Reg) (nn : Byte) (n : Nibble),
    Encodes 0x00E0 .cls ∧ Encodes 0x00EE .ret ∧ (sysAddrOk nnn = true → Encodes (wordA 0x0 nnn) (.sys nnn)) ∧
    Encodes (wordA 0x1 nnn) (.jp nnn) ∧ Encodes (wordA 0x2 nnn) (.call nnn) ∧
    Encodes (wordXB 0x3 x nn) (.seImm x nn) ∧ Encodes (wordXB 0x4 x nn) (.sneImm x nn) ∧
    Encodes (wordXYN 0x5 x y 0x0) (.seReg x y) ∧ Encodes (wordXB 0x6 x nn) (.ldImm x nn) ∧
    Encodes (wordXB 0x7 x nn) (.addImm x nn) ∧
    Encodes (wordXYN 0x8 x y 0x0) (.ldReg x y) ∧ Encodes (wordXYN 0x8 x y 0x1) (.orReg x y) ∧
    Encodes (wordXYN 0x8 x y 0x2) (.andReg x y) ∧ Encodes (wordXYN 0x8 x y 0x3) (.xorReg x y) ∧
    Encodes (wordXYN 0x8 x y 0x4) (.addReg x y) ∧ Encodes (wordXYN 0x8 x y 0x5) (.subReg x y) ∧
    Encodes (wordXYN 0x8 x y 0x6) (.shr x y) ∧ Encodes (wordXYN 0x8 x y 0x7) (.subn x y) ∧
    Encodes (wordXYN 0x8 x y 0xE) (.shl x y) ∧ Encodes (wordXYN 0x9 x y 0x0) (.sneReg x y) ∧
    Encodes (wordA 0xA nnn) (.ldI nnn) ∧ Encodes (wordA 0xB nnn) (.jpV0 nnn) ∧
    Encodes (wordXB 0xC x nn) (.rnd x nn) ∧ Encodes (wordXYN 0xD x y n) (.drw x y n) ∧
    Encodes (wordXB 0xE x 0x9E) (.skp x) ∧ Encodes (wordXB 0xE x 0xA1) (.sknp x) ∧
    Encodes (wordXB 0xF x 0x07) (.ldVxDt x) ∧ Encodes (wordXB 0xF x 0x0A) (.ldVxK x) ∧
    Encodes (wordXB 0xF x 0x15) (.ldDtVx x) ∧ Encodes (wordXB 0xF x 0x18) (.ldStVx x) ∧
    Encodes (wordXB 0xF x 0x1E) (.addI x) ∧ Encodes (wordXB 0xF x 0x29) (.ldF x) ∧
    Encodes (wordXB 0xF x 0x33) (.ldB x) ∧ Encodes (wordXB 0xF x 0x55) (.ldStore x) ∧
    Encodes (wordXB 0xF x 0x65) (.ldLoad x)

/-- R74, R81 but for its `0NNN` bullet: the words that decode to Illegal are the others it lists; the strict decode is the spec's decision
D4. R81 also calls `0NNN` illegal under `SYS_POLICY = fault`. In the model every `0NNN` word decodes (R82, log entry 10), and the policy acts
when SYS is executed, as R101 has it (decision D3): see `SysFollowsPolicy`. -/
def Obligations.IllegalWordsAreThoseListed : Prop :=
  ∀ w : Word, (∃ why, decode w = .illegal why) ↔
    (w.toNat / 0x1000 = 0x5 ∧ w.toNat % 0x10 ≠ 0) ∨
    (w.toNat / 0x1000 = 0x8 ∧ w.toNat % 0x10 ∈ [0x8, 0x9, 0xA, 0xB, 0xC, 0xD, 0xF]) ∨
    (w.toNat / 0x1000 = 0x9 ∧ w.toNat % 0x10 ≠ 0) ∨
    (w.toNat / 0x1000 = 0xE ∧ w.toNat % 0x100 ∉ [0x9E, 0xA1]) ∨
    (w.toNat / 0x1000 = 0xF ∧ w.toNat % 0x100 ∉ [0x07, 0x0A, 0x15, 0x18, 0x1E, 0x29, 0x33, 0x55, 0x65])

/-- 95_test_vectors W1 and V-DEC: words written out bit by bit. -/
def Obligations.WrittenOutWordsDecode : Prop :=
  decode 0x00E0 = .instr .cls ∧ decode 0x1200 = .instr (.jp 0x200) ∧ decode 0x6005 = .instr (.ldImm 0 0x05) ∧
    decode 0xF029 = .instr (.ldF 0) ∧ decode 0x00EE = .instr .ret ∧ decode 0x00E1 = .instr (.sys 0x0E1) ∧
    decode 0x8ABE = .instr (.shl 0xA 0xB) ∧ decode 0xD12F = .instr (.drw 1 2 0xF) ∧ decode 0xE1A1 = .instr (.sknp 1) ∧
    decode 0x5AB1 = .illegal .family5 ∧ decode 0x8ABF = .illegal .family8 ∧ decode 0xF1FF = .illegal .familyF

/-! ### One step (70_reset_and_hazards R263; 20_memory R51) -/

/-- R263: a step does nothing in Faulted, makes the wait check in AwaitingKey, and in Running fetches, decodes and executes exactly the
decoded instruction at the same state; a word that decodes to Illegal, and a fetch that leaves memory, fault. -/
def Obligations.StepRunsDecodedInstruction : Prop :=
  ∀ s : State,
    (∀ f, s.mode = .faulted f → step s = .next s) ∧
    (∀ x, s.mode = .awaitingKey x → step s = waitCheck x s) ∧
    (∀ w i, Fetches s w → decode w = .instr i → step s = exec i s) ∧
    (∀ w why, Fetches s w → decode w = .illegal why →
      step s = .next (s.raise .illegalInstruction (some w) none none)) ∧
    (s.mode = .running → memSize ≤ s.pc.toNat + 1 →
      step s = .next (s.raise .fetchOutOfBounds none (some (max s.pc.toNat memSize)) none))

/-- R51, R55, R58: in Running, from any pc whose two bytes are inside memory, odd or below 0x200 too, a word is fetched, and it is the
byte at pc followed by the byte after it, high byte first. Fetching below 0x200 is the spec's decision D37, odd pc its D7. -/
def Obligations.FetchIsBigEndian : Prop :=
  ∀ s : State, s.mode = .running → s.pc.toNat + 1 < memSize →
    Fetches s (BitVec.ofNat 16 ((s.readByte s.pc.toNat).toNat * 0x100 + (s.readByte (s.pc.toNat + 1)).toNat)) ∧
      s.fetch = .word (BitVec.ofNat 16 ((s.readByte s.pc.toNat).toNat * 0x100 + (s.readByte (s.pc.toNat + 1)).toNat))

/-- R221, R224, R263: every step answers a next state, in every state, and no instruction is refused: a fault of the core is a state. No
step writes the keypad (R31) or a parameter (R9). -/
def Obligations.EveryStepAnswersNext : Prop :=
  (∀ s : State, ∃ t, step s = .next t ∧ t.keys = s.keys ∧ t.params = s.params) ∧
    ∀ (i : Instr) (s : State), ∃ t, exec i s = .next t

/-- R51, R63: two bytes put where the next step fetches are the instruction that step runs, whatever the state was. How the word gets
there (`withFetchWord`) is the model's, log entry 14. -/
def Obligations.PlacedWordRuns : Prop :=
  ∀ (s : State) (w : Nat) (i : Instr), w < 2 ^ 16 → decode (BitVec.ofNat 16 w) = .instr i →
    decodeTableWord 16 w = some i ∧ step (s.withFetchWord 16 w) = exec i (s.withFetchWord 16 w)

/-! ### Control flow (40_control_flow) -/

/-- R101, by the spec's decision D3: `0NNN` faults under `SYS_POLICY = fault` and only advances pc under `nop`. -/
def Obligations.SysFollowsPolicy : Prop :=
  ∀ (nnn : Addr12) (s : State), sysAddrOk nnn = true →
    (s.params.sysPolicy = .fault → FaultsWith (.sys nnn) s .illegalInstruction (wordA 0x0 nnn) none none) ∧
    (s.params.sysPolicy = .nop →
      ∃ t, exec (.sys nnn) s = .next t ∧ Advances s t 2 ∧ KeptButThese s t [.pc])

/-- R102: RET pops the top entry into pc, the entry keeps its value, and an empty stack underflows. -/
def Obligations.RetPopsReturnAddress : Prop :=
  ∀ s : State,
    (∀ k : Fin 16, s.sp.val = k.val + 1 →
      ∃ t, exec .ret s = .next t ∧ t.sp.val = k.val ∧ t.pc = s.stack[k.val] ∧ KeptButThese s t [.sp, .pc]) ∧
    (s.sp.val = 0 → FaultsWith .ret s .stackUnderflow 0x00EE none none)

/-- R103: JP sets pc to nnn, which is not checked, and changes nothing else. -/
def Obligations.JumpSetsPc : Prop :=
  ∀ (nnn : Addr12) (s : State),
    ∃ t, exec (.jp nnn) s = .next t ∧ t.pc.toNat = nnn.toNat ∧ KeptButThese s t [.pc]

/-- R104, by the spec's decision D12: CALL pushes p + 2 and jumps; a full stack overflows. -/
def Obligations.CallPushesReturnAddress : Prop :=
  ∀ (nnn : Addr12) (s : State),
    (∀ k : Fin 16, s.sp.val = k.val →
      ∃ t, exec (.call nnn) s = .next t ∧ (s.pc.toNat + 2 ≤ 0xFFFF → (t.stack[k.val]).toNat = s.pc.toNat + 2) ∧
        t.sp.val = k.val + 1 ∧ t.pc.toNat = nnn.toNat ∧
        KeptButThese s t [.stackEntry k, .sp, .pc]) ∧
    (s.sp.val = 16 → FaultsWith (.call nnn) s .stackOverflow (wordA 0x2 nnn) none none)

/-- R105, R106: the skips that compare a register with an immediate. -/
def Obligations.ImmediateSkips : Prop :=
  ∀ (x : Reg) (nn : Byte) (s : State),
    (∃ t, exec (.seImm x nn) s = .next t ∧ Skips s t (s.getV x = nn)) ∧
    (∃ t, exec (.sneImm x nn) s = .next t ∧ Skips s t (s.getV x ≠ nn))

/-- R107, R108: the skips that compare two registers. -/
def Obligations.RegisterSkips : Prop :=
  ∀ (x y : Reg) (s : State),
    (∃ t, exec (.seReg x y) s = .next t ∧ Skips s t (s.getV x = s.getV y)) ∧
    (∃ t, exec (.sneReg x y) s = .next t ∧ Skips s t (s.getV x ≠ s.getV y))

/-- R109, by the spec's decisions D40 and D5: the target is base + V0, unreduced; one that does not fit pc faults at the jump. -/
def Obligations.IndexedJump : Prop :=
  ∀ (nnn : Addr12) (s : State) (base : Nat), JumpBaseIs s nnn base →
    (base + (s.getV 0).toNat ≤ 0xFFFF →
      ∃ t, exec (.jpV0 nnn) s = .next t ∧ t.pc.toNat = base + (s.getV 0).toNat ∧ KeptButThese s t [.pc]) ∧
    (0xFFFF < base + (s.getV 0).toNat →
      FaultsWith (.jpV0 nnn) s .fetchOutOfBounds (wordA 0xB nnn) (some (base + (s.getV 0).toNat)) none)

/-! ### Register arithmetic, logic, shifts, random (41_alu) -/

/-- R131. -/
def Obligations.LoadImmediate : Prop :=
  ∀ (x : Reg) (nn : Byte) (s : State),
    ∃ t, exec (.ldImm x nn) s = .next t ∧ t.getV x = nn ∧ Advances s t 2 ∧ KeptButThese s t [.reg x, .pc]

/-- R132, by the spec's decision D16: the sum wraps at 256 and no carry is recorded. -/
def Obligations.AddImmediateWraps : Prop :=
  ∀ (x : Reg) (nn : Byte) (s : State),
    ∃ t, exec (.addImm x nn) s = .next t ∧ (t.getV x).toNat = ((s.getV x).toNat + nn.toNat) % 256 ∧
      Advances s t 2 ∧ KeptButThese s t [.reg x, .pc]

/-- R133. -/
def Obligations.RegisterMove : Prop :=
  ∀ (x y : Reg) (s : State),
    ∃ t, exec (.ldReg x y) s = .next t ∧ t.getV x = s.getV y ∧ Advances s t 2 ∧ KeptButThese s t [.reg x, .pc]

/-- R134, R135, R136, by the spec's decision D15 on VF. -/
def Obligations.LogicOperations : Prop :=
  ∀ (x y : Reg) (s : State),
    (∃ t, exec (.orReg x y) s = .next t ∧ LogicResult s t x (s.getV x ||| s.getV y)) ∧
    (∃ t, exec (.andReg x y) s = .next t ∧ LogicResult s t x (s.getV x &&& s.getV y)) ∧
    (∃ t, exec (.xorReg x y) s = .next t ∧ LogicResult s t x (s.getV x ^^^ s.getV y))

/-- R137: VF is the carry of the unreduced sum. With x = F the flag is what stays (the spec's decision D13). -/
def Obligations.AddSetsCarry : Prop :=
  ∀ (x y : Reg) (s : State),
    ∃ t, exec (.addReg x y) s = .next t ∧
      ResultThenFlag s t x (((s.getV x).toNat + (s.getV y).toNat) % 256) (255 < (s.getV x).toNat + (s.getV y).toNat)

/-- R138: VF is NOT borrow, 1 on equal operands. With x = F the flag is what stays (the spec's decision D13). -/
def Obligations.SubSetsNotBorrow : Prop :=
  ∀ (x y : Reg) (s : State),
    ∃ t, exec (.subReg x y) s = .next t ∧
      ResultThenFlag s t x ((256 + (s.getV x).toNat - (s.getV y).toNat) % 256) ((s.getV y).toNat ≤ (s.getV x).toNat)

/-- R140, by the spec's decisions D34 on equal operands and D13 on x = F. -/
def Obligations.SubnSetsNotBorrow : Prop :=
  ∀ (x y : Reg) (s : State),
    ∃ t, exec (.subn x y) s = .next t ∧
      ResultThenFlag s t x ((256 + (s.getV y).toNat - (s.getV x).toNat) % 256) ((s.getV x).toNat ≤ (s.getV y).toNat)

/-- R139, R141, by the spec's decisions D14 on the source and D13 on x = F: VF is the bit shifted out. -/
def Obligations.ShiftsSetShiftedOutBit : Prop :=
  ∀ (x y : Reg) (s : State) (src : Byte), ShiftSourceIs s x y src →
    (∃ t, exec (.shr x y) s = .next t ∧ ResultThenFlag s t x (src.toNat / 2) (src.toNat % 2 = 1)) ∧
    (∃ t, exec (.shl x y) s = .next t ∧ ResultThenFlag s t x (src.toNat * 2 % 256) (128 ≤ src.toNat))

/-- R142: Vx is the draw AND nn, for whatever byte the draw is (`Config.freeByte` has no body, log entry 3), so only bits set in nn can
be 1; the draw is counted, so the next one is fresh. -/
def Obligations.RandomByteIsMasked : Prop :=
  ∀ (x : Reg) (nn : Byte) (s : State),
    ∃ t, exec (.rnd x nn) s = .next t ∧ t.getV x = Config.freeByte s.draws &&& nn ∧ t.getV x &&& ~~~nn = 0 ∧
      t.draws = s.draws + 1 ∧ Advances s t 2 ∧ KeptButThese s t [.reg x, .pc, .draws]

/-! ### Index register and memory transfer (42_index_memory) -/

/-- R161. -/
def Obligations.LoadIndex : Prop :=
  ∀ (nnn : Addr12) (s : State),
    ∃ t, exec (.ldI nnn) s = .next t ∧ t.i.toNat = nnn.toNat ∧ Advances s t 2 ∧ KeptButThese s t [.index, .pc]

/-- R162, by the spec's decisions D6 and D17: I wraps at 16 bits, no fault, no flag. -/
def Obligations.AddToIndexWraps : Prop :=
  ∀ (x : Reg) (s : State),
    ∃ t, exec (.addI x) s = .next t ∧ t.i.toNat = (s.i.toNat + (s.getV x).toNat) % 0x10000 ∧
      Advances s t 2 ∧ KeptButThese s t [.index, .pc]

/-- R163, by the spec's decisions D19 and D20: the glyph of the digit, its low nibble under `mask`, a fault above 0xF under `fault`. -/
def Obligations.FontGlyphAddress : Prop :=
  ∀ (x : Reg) (s : State),
    ((s.getV x).toNat < 16 ∨ s.params.fontDigitPolicy = .mask →
      ∃ t, exec (.ldF x) s = .next t ∧ t.i.toNat = s.params.fontBase.val + 5 * ((s.getV x).toNat % 16) ∧
        Advances s t 2 ∧ KeptButThese s t [.index, .pc]) ∧
    (16 ≤ (s.getV x).toNat ∧ s.params.fontDigitPolicy = .fault →
      FaultsWith (.ldF x) s .fontDigitOutOfRange (wordXB 0xF x 0x29) none (some (s.getV x)))

/-- R164, by the spec's decision D33 on the order: the three decimal digits go to I, I+1, I+2; I is not changed. -/
def Obligations.BcdStore : Prop :=
  ∀ (x : Reg) (s : State), Writable s 3 →
    ∃ t, exec (.ldB x) s = .next t ∧
      (t.readByte s.i.toNat).toNat = (s.getV x).toNat / 100 ∧
      (t.readByte (s.i.toNat + 1)).toNat = (s.getV x).toNat / 10 % 10 ∧
      (t.readByte (s.i.toNat + 2)).toNat = (s.getV x).toNat % 10 ∧
      Advances s t 2 ∧
      KeptButThese s t [.byte s.i.toNat, .byte (s.i.toNat + 1), .byte (s.i.toNat + 2), .pc]

/-- R165, by the spec's decision D18 on I: V0 to Vx go to I..I+x, and every other byte reads as before. -/
def Obligations.StoreRegisters : Prop :=
  ∀ (x : Reg) (s : State), Writable s (x.val + 1) →
    ∃ t, exec (.ldStore x) s = .next t ∧
      (∀ k : Reg, k ≤ x → t.readByte (s.i.toNat + k.val) = s.getV k) ∧ IndexAfter s t x ∧ Advances s t 2 ∧
      KeptBut s t fun p => p = .pc ∨ p = .index ∨ ∃ k : Reg, k ≤ x ∧ p = .byte (s.i.toNat + k.val)

/-- R166 (I by decision D18): V0 to Vx come from I..I+x, the registers above x stay, and a range past 0xFFF faults at the first address
outside. -/
def Obligations.LoadRegisters : Prop :=
  ∀ (x : Reg) (s : State), (Readable s (x.val + 1) →
      ∃ t, exec (.ldLoad x) s = .next t ∧
        (∀ k : Reg, k ≤ x → t.getV k = s.readByte (s.i.toNat + k.val)) ∧ IndexAfter s t x ∧ Advances s t 2 ∧
        KeptBut s t fun p => p = .pc ∨ p = .index ∨ ∃ k : Reg, k ≤ x ∧ p = .reg k) ∧
    (¬ Readable s (x.val + 1) →
      FaultsWith (.ldLoad x) s .memOutOfBounds (wordXB 0xF x 0x65) (some (max s.i.toNat memSize)) none)

/-- R160 (derived there from R52 and R53; `PROTECT_LOW` is decision D8): a store of `FX33` or `FX55` that may not be made faults at the
lowest failing address, and writes nothing. -/
def Obligations.StoresFaultAtFirstBadAddress : Prop :=
  ∀ (x : Reg) (s : State) (i : Instr) (n : Nat) (w : Word),
    (i = .ldB x ∧ n = 3 ∧ w = wordXB 0xF x 0x33) ∨ (i = .ldStore x ∧ n = x.val + 1 ∧ w = wordXB 0xF x 0x55) →
    (s.params.protectLow = .fault ∧ s.i.toNat < programBase →
      FaultsWith i s .writeProtected w (some s.i.toNat) none) ∧
    ((s.params.protectLow = .fault → programBase ≤ s.i.toNat) ∧ memSize < s.i.toNat + n →
      FaultsWith i s .memOutOfBounds w (some (max s.i.toNat memSize)) none)

/-! ### Display (43_display) -/

/-- R181. -/
def Obligations.ClearScreen : Prop :=
  ∀ s : State, ∃ t, exec .cls s = .next t ∧ (∀ row col, t.pixel row col = false) ∧ Advances s t 2 ∧
      KeptBut s t fun p => p = .pc ∨ ∃ row col, p = .pixel row col

/-- R182 where every sprite byte is inside memory (n = 0 reads none): a pixel is flipped exactly where a set bit falls on it, wrapped;
VF is 1 where some pixel went from on to off, else 0. -/
def Obligations.DrawFlipsCoveredPixels : Prop :=
  ∀ (x y : Reg) (n : Nibble) (s : State), n = 0 ∨ Readable s n.toNat →
    ∃ t, exec (.drw x y n) s = .next t ∧
      (∀ row col, SpriteCovers s x y n row col → t.pixel row col = !s.pixel row col) ∧
      ((∃ row col, SpriteCovers s x y n row col ∧ s.pixel row col = true) → t.getV regF = 1) ∧
      ((¬ ∃ row col, SpriteCovers s x y n row col ∧ s.pixel row col = true) → t.getV regF = 0) ∧
      Advances s t 2 ∧
      KeptBut s t fun p => p = .pc ∨ p = .reg regF ∨ ∃ row col, p = .pixel row col ∧ SpriteCovers s x y n row col

/-- R182, by the spec's decision D27: a sprite that leaves memory faults at the first address outside, and changes no pixel. -/
def Obligations.DrawOutsideMemoryFaults : Prop :=
  ∀ (x y : Reg) (n : Nibble) (s : State), n ≠ 0 → ¬ Readable s n.toNat →
    FaultsWith (.drw x y n) s .memOutOfBounds (wordXYN 0xD x y n) (some (max s.i.toNat memSize)) none

/-- R183 (a): a sprite drawn twice at the same place restores every pixel. VF after the second draw is 1 exactly where the first draw
turned some pixel on (the source's own words: "reports collision=true if pixels were set by the first"). x and y are not F, since the
first draw writes VF. -/
def Obligations.DrawTwiceRestores : Prop :=
  ∀ (x y : Reg) (n : Nibble) (s : State), x ≠ regF → y ≠ regF → n = 0 ∨ Readable s n.toNat →
    ∃ t u, exec (.drw x y n) s = .next t ∧ exec (.drw x y n) t = .next u ∧
      (∀ row col, u.pixel row col = s.pixel row col) ∧
      (u.getV regF = 1 ↔ ∃ row col, SpriteCovers s x y n row col ∧ s.pixel row col = false)

/-- R183 (a) read literally: "The second draw has VF = 1 iff the sprite has at least one set bit." It does not follow from R182 (log
entry 16): where every pixel the sprite covers was on before, the first draw turns them off and the second turns them on. -/
def Obligations.SecondDrawCollidesIffSetBit : Prop :=
  ∀ (x y : Reg) (n : Nibble) (s t u : State), x ≠ regF → y ≠ regF → n = 0 ∨ Readable s n.toNat →
    exec (.drw x y n) s = .next t → exec (.drw x y n) t = .next u →
      (u.getV regF = 1 ↔ ∃ row col, SpriteCovers s x y n row col)

/-! ### Keypad and timer instructions (44_keypad_timers) -/

/-- R201, R202, with KeyIndex by R200 and the spec's decision D21. -/
def Obligations.KeySkips : Prop :=
  ∀ (x : Reg) (s : State),
    (∀ k : Key, k.val = (s.getV x).toNat % 16 → (s.getV x).toNat < 16 ∨ s.params.keyIndexPolicy = .mask →
      (∃ t, exec (.skp x) s = .next t ∧ Skips s t (s.keyDown k = true)) ∧
      (∃ t, exec (.sknp x) s = .next t ∧ Skips s t (s.keyDown k = false))) ∧
    (16 ≤ (s.getV x).toNat ∧ s.params.keyIndexPolicy = .fault →
      FaultsWith (.skp x) s .keyIndexOutOfRange (wordXB 0xE x 0x9E) none (some (s.getV x)) ∧
      FaultsWith (.sknp x) s .keyIndexOutOfRange (wordXB 0xE x 0xA1) none (some (s.getV x)))

/-- R203. -/
def Obligations.ReadDelayTimer : Prop :=
  ∀ (x : Reg) (s : State),
    ∃ t, exec (.ldVxDt x) s = .next t ∧ t.getV x = s.dt ∧ Advances s t 2 ∧ KeptButThese s t [.reg x, .pc]

/-- R204, by the spec's decisions D24 and D25: the entry step tests no key and keeps pc. -/
def Obligations.KeyWaitEntry : Prop :=
  ∀ (x : Reg) (s : State),
    ∃ t, exec (.ldVxK x) s = .next t ∧ t.mode = .awaitingKey x ∧ t.pc = s.pc ∧ Latched s t ∧
      KeptBut s t fun p => p = .mode ∨ ∃ k, p = .keyAtWait k

/-- R205, R206. -/
def Obligations.SetTimers : Prop :=
  ∀ (x : Reg) (s : State),
    (∃ t, exec (.ldDtVx x) s = .next t ∧ t.dt = s.getV x ∧ Advances s t 2 ∧ KeptButThese s t [.dt, .pc]) ∧
    (∃ t, exec (.ldStVx x) s = .next t ∧ t.st = s.getV x ∧ Advances s t 2 ∧ KeptButThese s t [.st, .pc])

/-- R207 where no key ends the wait (trigger by decision D22): under `level` the step changes nothing at all, under `press_edge` only
KeysAtWait. -/
def Obligations.WaitWithoutKeyChangesNothing : Prop :=
  ∀ (x : Reg) (s : State), s.mode = .awaitingKey x → (∀ k, ¬ EndsWait s k) →
    (s.params.keyWaitTrigger = .level → step s = .next s) ∧
    ∃ t, step s = .next t ∧ Latched s t ∧ KeptBut s t fun p => ∃ k, p = .keyAtWait k

/-- R207 where some key ends the wait: one of them, whichever the free choice gives (decision D23, log entry 4), goes to Vx, pc passes
the `FX0A`, and the core runs again. The count of free values is the model's. -/
def Obligations.WaitEndsWithSomeKey : Prop :=
  ∀ (x : Reg) (s : State), s.mode = .awaitingKey x → (∃ k, EndsWait s k) →
    ∃ t k, step s = .next t ∧ EndsWait s k ∧ (t.getV x).toNat = k.val ∧ Advances s t 2 ∧ t.mode = .running ∧ Latched s t ∧
      KeptBut s t fun p => p = .reg x ∨ p = .pc ∨ p = .mode ∨ p = .draws ∨ ∃ k, p = .keyAtWait k

/-- R207: "`ChooseKey(P)` may return any member of P". For each key of P there is a value of the free number that chooses it, and no
value chooses another key. -/
def Obligations.EveryKeyOfTheSetCanBeChosen : Prop :=
  ∀ (k : Key) (ks : List Key) (j : Key), j ∈ k :: ks ↔ ∃ n, chooseKey k ks n = j

/-! ### Faults (60_exceptions) -/

/-- R221, R222, R223 (precision is the spec's decision D9, the record its D10), for all instructions: one that faults changes Mode and
nothing else, its record holds pc, its word, a cause R222 lists for it, and the information R220 lists for the cause. -/
def Obligations.FaultsArePrecise : Prop :=
  ∀ (i : Instr) (s t : State) (f : FaultRecord), (∀ g, s.mode ≠ .faulted g) → exec i s = .next t → t.mode = .faulted f →
    t = { s with mode := .faulted f } ∧ f.pc = s.pc ∧ f.opcode = some (encode i) ∧ f.cause ∈ possibleCauses i ∧
      (f.addr.isSome = true ↔ f.cause ∈ [.fetchOutOfBounds, .memOutOfBounds, .writeProtected]) ∧
      (f.value.isSome = true ↔ f.cause ∈ [.keyIndexOutOfRange, .fontDigitOutOfRange])

/-- R224, R228, R243, R244 (decisions D9, D26, D31): in Faulted a step does nothing; a tick takes one off each timer that is not 0 and each
key can be set and released, and the fault stays; reset ends it. -/
def Obligations.FaultedIsFinalUntilReset : Prop :=
  ∀ (s : State) (f : FaultRecord), s.mode = .faulted f →
    step s = .next s ∧
      (s.tick).mode = .faulted f ∧ (s.tick).dt.toNat = s.dt.toNat - 1 ∧ (s.tick).st.toNat = s.st.toNat - 1 ∧
      (∀ (k : Key) (b : Bool), ∃ t, setKey k.val b s = .next t ∧ t.keyDown k = b ∧ t.mode = .faulted f) ∧
      (s.rebooted).mode = .running

/-! ### Who writes what -/

/-- R28 and R27, as far as writing goes: only CALL writes the stack, only CALL and RET change SP. -/
def Obligations.OnlyCallAndRetChangeTheStack : Prop :=
  ∀ (i : Instr) (s t : State), exec i s = .next t →
    ((∀ nnn, i ≠ .call nnn) → t.stack = s.stack) ∧ ((∀ nnn, i ≠ .call nnn) → i ≠ .ret → t.sp = s.sp)

/-- R53: "Only `FX33` and `FX55` write `Mem`". -/
def Obligations.OnlyStoresWriteMemory : Prop :=
  ∀ (i : Instr) (s t : State), (∀ x, i ≠ .ldB x) → (∀ x, i ≠ .ldStore x) → exec i s = .next t →
    ∀ a, t.readByte a = s.readByte a

/-- R30, R245: only CLS and DRW write the display. -/
def Obligations.OnlyClearAndDrawWriteTheDisplay : Prop :=
  ∀ (i : Instr) (s t : State), i ≠ .cls → (∀ x y n, i ≠ .drw x y n) → exec i s = .next t →
    ∀ row col, t.pixel row col = s.pixel row col

/-- R22, R23, R24: an instruction changes only the general registers listed as its destination, VF only where it is named, and I only
where it is one of `ANNN`, `FX1E`, `FX29`, or `FX55` and `FX65` under `LOADSTORE_ADVANCE_I`. -/
def Obligations.RegistersWrittenOnlyAsListed : Prop :=
  ∀ (i : Instr) (s t : State), exec i s = .next t →
    (∀ r : Reg, ¬ writesReg s.params i r → t.getV r = s.getV r) ∧ (¬ writesIndex s.params i → t.i = s.i)

/-- R241: the timers change only at a tick, by `FX15` and `FX18`, and at reset, where they become 0. -/
def Obligations.TimersWrittenOnlyAsListed : Prop :=
  ∀ (op : HostOp) (s t : State), hostOp op s = .next t →
    (op = .reset → t.dt = 0 ∧ t.st = 0) ∧
    (op = .tick → t.dt.toNat = s.dt.toNat - 1 ∧ t.st.toNat = s.st.toNat - 1) ∧
    (op ≠ .reset → op ≠ .tick → t.dt ≠ s.dt →
      op = .step ∧ ∃ w x, Fetches s w ∧ decode w = .instr (.ldDtVx x) ∧ t.dt = s.getV x) ∧
    (op ≠ .reset → op ≠ .tick → t.st ≠ s.st →
      op = .step ∧ ∃ w x, Fetches s w ∧ decode w = .instr (.ldStVx x) ∧ t.st = s.getV x)

/-! ### Invariants -/

/-- Every step keeps the invariant `Inv`: memory's canonical form (the model's, log entry 7), a waiting pc inside memory (R204), a
recorded fault at pc (R223), return addresses of at most 0x1000 (R104). -/
def Obligations.StepKeepsInvariant : Prop :=
  ∀ s t : State, Inv s → step s = .next t → Inv t

/-- R53: with `PROTECT_LOW = fault` (decision D8) every step keeps the interpreter region at its reset contents. -/
def Obligations.StepKeepsLowMemory : Prop :=
  ∀ s t : State, s.params.protectLow = .fault → LowMemoryFixed s → step s = .next t → LowMemoryFixed t

/-- The reset state of every choice of parameters meets the invariants. -/
def Obligations.ResetMeetsInvariants : Prop :=
  ∀ p : Params, Inv (State.resetWith p) ∧ LowMemoryFixed (State.resetWith p)

/-- Every move of the host keeps the invariant; `load_rom` while the core runs (R267, R273). -/
def Obligations.HostMovesKeepInvariant : Prop :=
  ∀ (op : HostOp) (s t : State), Inv s → Allowed op s → hostOp op s = .next t → Inv t

/-! ### The host's operations (60_exceptions R240 to R244; 70_reset_and_hazards) -/

/-- R240, R242: a tick takes one off each timer that is not 0 and writes nothing else; sound is active exactly while ST is not 0. -/
def Obligations.TickDecrements : Prop :=
  ∀ s : State, (s.tick).dt.toNat = s.dt.toNat - 1 ∧ (s.tick).st.toNat = s.st.toNat - 1 ∧
    KeptButThese s s.tick [.dt, .st] ∧ (s.soundActive = true ↔ s.st ≠ 0)

/-- R244, by the spec's decision D31: one key changes; k of 16 or more fails. -/
def Obligations.SetKeyWritesOneKey : Prop :=
  ∀ (b : Bool) (s : State),
    (∀ k : Key, ∃ t, setKey k.val b s = .next t ∧ t.keyDown k = b ∧ KeptButThese s t [.key k]) ∧
    (∀ k : Nat, 16 ≤ k → setKey k b s = .refused .keyOutOfRange)

/-- R265 (by the spec's decision D30), R266: the ROM's bytes stand from 0x200 on, pc is 0x200 and nothing else changes; more than 3584
bytes are turned away. That it holds in every state, after a first step too, is the model's choice (log entry 13). -/
def Obligations.RomLoad : Prop :=
  ∀ (bytes : List Byte) (s : State),
    (bytes.length ≤ 3584 →
      ∃ t, loadRom bytes s = .next t ∧ (∀ i, ∀ h : i < bytes.length, t.readByte (0x200 + i) = bytes[i]) ∧ t.pc = 0x200 ∧
        KeptBut s t fun p => p = .pc ∨ ∃ i, i < bytes.length ∧ p = .byte (0x200 + i)) ∧
    (3584 < bytes.length → loadRom bytes s = .refused .romTooLarge)

/-- R36 (D29 for what the source does not state), R57, R260: every part of the reset state, under every choice of parameters, and the
same after a reset of any state. -/
def Obligations.ResetValues : Prop :=
  ∀ s t : State, t = State.resetWith s.params ∨ t = s.rebooted →
    (∀ (d : Fin 16) (j : Fin 5), t.readByte (s.params.fontBase.val + 5 * d.val + j.val) = s.params.fontGlyphs[d.val][j.val]) ∧
    (∀ a, a < s.params.fontBase.val ∨ s.params.fontBase.val + 80 ≤ a → t.readByte a = 0) ∧
    (∀ x, t.getV x = 0) ∧ t.i = 0 ∧ t.pc = 0x200 ∧ t.sp = 0 ∧ (∀ k : Fin 16, t.stack[k.val] = 0) ∧ t.dt = 0 ∧ t.st = 0 ∧
    (∀ row col, t.pixel row col = false) ∧ (∀ k : Key, t.keyDown k = false ∧ t.keysAtWait[k.val] = false) ∧ t.mode = .running

/-- R272 (the definition is the spec's decision D42): from an Idle state a step returns to the same state, and a tick and a key change
keep it Idle. -/
def Obligations.IdleStays : Prop :=
  ∀ s : State, s.idle = true →
    step s = .next s ∧ (s.tick).idle = true ∧ ∀ k b t, setKey k b s = .next t → t.idle = true
end

