-- ==== Sys2Proof/Laws/Decode.lean ====
section
/-! SUPPORT. The fields of a packed word, and the bytes of a word. -/

namespace Sys2Proof

/-- The high part of two bit strings put together. -/
theorem extract_append_high {a b : Nat} (x : BitVec a) (y : BitVec b) : (x ++ y).extractLsb' b a = x := by
  apply BitVec.eq_of_getLsbD_eq
  intro i hi
  simp [BitVec.getLsbD_append, hi]

/-- A field inside the low part of two bit strings put together. -/
theorem extract_append_low {a b k n : Nat} (x : BitVec a) (y : BitVec b) (h : k + n ≤ b) :
    (x ++ y).extractLsb' k n = y.extractLsb' k n := by
  apply BitVec.eq_of_getLsbD_eq
  intro i hi
  simp [BitVec.getLsbD_append, hi, show k + i < b by omega]

/-- The two bytes of a word put together again are the word. -/
theorem wordOfBytes_split (w : Word) : wordOfBytes (highByte w) (lowByte w) = w := by
  apply BitVec.eq_of_getLsbD_eq
  intro i hi
  simp only [wordOfBytes, highByte, lowByte, BitVec.getLsbD_append, BitVec.getLsbD_extractLsb']
  split
  · simp_all
  · simp [show i - 8 < 8 by omega, show 8 + (i - 8) = i by omega]

@[simp] theorem highByte_wordOfBytes (hi lo : Byte) : highByte (wordOfBytes hi lo) = hi := extract_append_high hi lo

@[simp] theorem lowByte_wordOfBytes (hi lo : Byte) : lowByte (wordOfBytes hi lo) = lo :=
  (extract_append_low hi lo (by decide)).trans BitVec.extractLsb'_eq_self

@[simp] theorem regBits_fieldX (w : Word) : regBits (fieldX w) = w.extractLsb' 8 4 := rfl
@[simp] theorem regBits_fieldY (w : Word) : regBits (fieldY w) = w.extractLsb' 4 4 := rfl

section
variable (f : Nibble) (nnn : Addr12) (x y : Reg) (nn : Byte) (n : Nibble)

@[simp] theorem fieldF_packA : fieldF (packA f nnn) = f := extract_append_high f nnn
@[simp] theorem fieldNNN_packA : fieldNNN (packA f nnn) = nnn :=
  (extract_append_low f nnn (by decide)).trans BitVec.extractLsb'_eq_self

@[simp] theorem fieldF_packXB : fieldF (packXB f x nn) = f := extract_append_high f (regBits x ++ nn : BitVec 12)
@[simp] theorem fieldX_packXB : fieldX (packXB f x nn) = x :=
  congrArg BitVec.toFin
    ((extract_append_low f (regBits x ++ nn : BitVec 12) (by decide)).trans (extract_append_high (regBits x) nn))
@[simp] theorem fieldNN_packXB : fieldNN (packXB f x nn) = nn :=
  ((extract_append_low f (regBits x ++ nn : BitVec 12) (by decide)).trans
    (extract_append_low (regBits x) nn (by decide))).trans BitVec.extractLsb'_eq_self

/-- The low byte of a format `XYN` word. -/
theorem fieldNN_packXYN : fieldNN (packXYN f x y n) = regBits y ++ n :=
  fieldNN_packXB f x (regBits y ++ n)

@[simp] theorem fieldF_packXYN : fieldF (packXYN f x y n) = f := fieldF_packXB f x (regBits y ++ n)
@[simp] theorem fieldX_packXYN : fieldX (packXYN f x y n) = x := fieldX_packXB f x (regBits y ++ n)
@[simp] theorem fieldY_packXYN : fieldY (packXYN f x y n) = y :=
  congrArg BitVec.toFin
    (((extract_append_low f (regBits x ++ (regBits y ++ n : BitVec 8) : BitVec 12) (by decide)).trans
      (extract_append_low (regBits x) (regBits y ++ n : BitVec 8) (by decide))).trans (extract_append_high (regBits y) n))
@[simp] theorem fieldN_packXYN : fieldN (packXYN f x y n) = n :=
  (((extract_append_low f (regBits x ++ (regBits y ++ n : BitVec 8) : BitVec 12) (by decide)).trans
    (extract_append_low (regBits x) (regBits y ++ n : BitVec 8) (by decide))).trans
    (extract_append_low (regBits y) n (by decide))).trans BitVec.extractLsb'_eq_self
end

/-! ### A word is its fields put together -/

theorem packA_fields (w : Word) : packA (fieldF w) (fieldNNN w) = w := by
  apply BitVec.eq_of_getLsbD_eq
  intro i hi
  simp only [packA, fieldF, fieldNNN, BitVec.getLsbD_append, BitVec.getLsbD_extractLsb']
  split
  · simp_all
  · simp [show i - 12 < 4 by omega, show 12 + (i - 12) = i by omega]

theorem packXB_fields (w : Word) : packXB (fieldF w) (fieldX w) (fieldNN w) = w := by
  apply BitVec.eq_of_getLsbD_eq
  intro i hi
  simp only [packXB, regBits_fieldX, fieldF, fieldNN, BitVec.getLsbD_append, BitVec.getLsbD_extractLsb']
  split
  · split
    · simp_all
    · simp [show i - 8 < 4 by omega, show 8 + (i - 8) = i by omega]
  · simp [show i - 12 < 4 by omega, show 12 + (i - 12) = i by omega]

theorem fieldNN_fields (w : Word) : fieldNN w = regBits (fieldY w) ++ fieldN w := by
  apply BitVec.eq_of_getLsbD_eq
  intro i hi
  simp only [regBits_fieldY, fieldN, fieldNN, BitVec.getLsbD_append, BitVec.getLsbD_extractLsb']
  split
  · simp_all
  · simp [hi, show i - 4 < 4 by omega, show 4 + (i - 4) = i by omega]

theorem packXYN_fields (w : Word) : packXYN (fieldF w) (fieldX w) (fieldY w) (fieldN w) = w := by
  have h := packXB_fields w
  rwa [fieldNN_fields] at h

/-! ### The fields as numbers -/

theorem fieldF_toNat (w : Word) : (fieldF w).toNat = w.toNat / 0x1000 := by
  simp [fieldF, BitVec.extractLsb'_toNat, Nat.shiftRight_eq_div_pow]
  omega

theorem fieldN_toNat (w : Word) : (fieldN w).toNat = w.toNat % 0x10 := by
  simp [fieldN, BitVec.extractLsb'_toNat]

theorem fieldNN_toNat (w : Word) : (fieldNN w).toNat = w.toNat % 0x100 := by
  simp [fieldNN, BitVec.extractLsb'_toNat]

end Sys2Proof
end

