-- ==== Sys2Proof/Laws/State.lean ====
section
/-! SUPPORT. The fields of a state after each update: one lemma per field and update, so that no proof unfolds an update. -/

namespace Sys2Proof.Machine

variable (s : State)

/-! ### setV -/

@[simp] theorem State.setV_params (x : Reg) (b : Byte) : (s.setV x b).params = s.params := rfl
@[simp] theorem State.setV_mem (x : Reg) (b : Byte) : (s.setV x b).mem = s.mem := rfl
@[simp] theorem State.setV_v (x : Reg) (b : Byte) : (s.setV x b).v = s.v.set x.val b := rfl
@[simp] theorem State.setV_i (x : Reg) (b : Byte) : (s.setV x b).i = s.i := rfl
@[simp] theorem State.setV_pc (x : Reg) (b : Byte) : (s.setV x b).pc = s.pc := rfl
@[simp] theorem State.setV_sp (x : Reg) (b : Byte) : (s.setV x b).sp = s.sp := rfl
@[simp] theorem State.setV_stack (x : Reg) (b : Byte) : (s.setV x b).stack = s.stack := rfl
@[simp] theorem State.setV_dt (x : Reg) (b : Byte) : (s.setV x b).dt = s.dt := rfl
@[simp] theorem State.setV_st (x : Reg) (b : Byte) : (s.setV x b).st = s.st := rfl
@[simp] theorem State.setV_disp (x : Reg) (b : Byte) : (s.setV x b).disp = s.disp := rfl
@[simp] theorem State.setV_keys (x : Reg) (b : Byte) : (s.setV x b).keys = s.keys := rfl
@[simp] theorem State.setV_mode (x : Reg) (b : Byte) : (s.setV x b).mode = s.mode := rfl
@[simp] theorem State.setV_keysAtWait (x : Reg) (b : Byte) : (s.setV x b).keysAtWait = s.keysAtWait := rfl
@[simp] theorem State.setV_draws (x : Reg) (b : Byte) : (s.setV x b).draws = s.draws := rfl

/-! ### advance -/

@[simp] theorem State.advance_params : (s.advance).params = s.params := rfl
@[simp] theorem State.advance_mem : (s.advance).mem = s.mem := rfl
@[simp] theorem State.advance_v : (s.advance).v = s.v := rfl
@[simp] theorem State.advance_i : (s.advance).i = s.i := rfl
@[simp] theorem State.advance_pc : (s.advance).pc = s.pc + 2 := rfl
@[simp] theorem State.advance_sp : (s.advance).sp = s.sp := rfl
@[simp] theorem State.advance_stack : (s.advance).stack = s.stack := rfl
@[simp] theorem State.advance_dt : (s.advance).dt = s.dt := rfl
@[simp] theorem State.advance_st : (s.advance).st = s.st := rfl
@[simp] theorem State.advance_disp : (s.advance).disp = s.disp := rfl
@[simp] theorem State.advance_keys : (s.advance).keys = s.keys := rfl
@[simp] theorem State.advance_mode : (s.advance).mode = s.mode := rfl
@[simp] theorem State.advance_keysAtWait : (s.advance).keysAtWait = s.keysAtWait := rfl
@[simp] theorem State.advance_draws : (s.advance).draws = s.draws := rfl

/-! ### skipIf -/

@[simp] theorem State.skipIf_params (c : Bool) : (s.skipIf c).params = s.params := rfl
@[simp] theorem State.skipIf_mem (c : Bool) : (s.skipIf c).mem = s.mem := rfl
@[simp] theorem State.skipIf_v (c : Bool) : (s.skipIf c).v = s.v := rfl
@[simp] theorem State.skipIf_i (c : Bool) : (s.skipIf c).i = s.i := rfl
@[simp] theorem State.skipIf_pc (c : Bool) : (s.skipIf c).pc = if c then s.pc + 4 else s.pc + 2 := rfl
@[simp] theorem State.skipIf_sp (c : Bool) : (s.skipIf c).sp = s.sp := rfl
@[simp] theorem State.skipIf_stack (c : Bool) : (s.skipIf c).stack = s.stack := rfl
@[simp] theorem State.skipIf_dt (c : Bool) : (s.skipIf c).dt = s.dt := rfl
@[simp] theorem State.skipIf_st (c : Bool) : (s.skipIf c).st = s.st := rfl
@[simp] theorem State.skipIf_disp (c : Bool) : (s.skipIf c).disp = s.disp := rfl
@[simp] theorem State.skipIf_keys (c : Bool) : (s.skipIf c).keys = s.keys := rfl
@[simp] theorem State.skipIf_mode (c : Bool) : (s.skipIf c).mode = s.mode := rfl
@[simp] theorem State.skipIf_keysAtWait (c : Bool) : (s.skipIf c).keysAtWait = s.keysAtWait := rfl
@[simp] theorem State.skipIf_draws (c : Bool) : (s.skipIf c).draws = s.draws := rfl

/-! ### jumpTo -/

@[simp] theorem State.jumpTo_params (a : Addr12) : (s.jumpTo a).params = s.params := rfl
@[simp] theorem State.jumpTo_mem (a : Addr12) : (s.jumpTo a).mem = s.mem := rfl
@[simp] theorem State.jumpTo_v (a : Addr12) : (s.jumpTo a).v = s.v := rfl
@[simp] theorem State.jumpTo_i (a : Addr12) : (s.jumpTo a).i = s.i := rfl
@[simp] theorem State.jumpTo_pc (a : Addr12) : (s.jumpTo a).pc = a.setWidth 16 := rfl
@[simp] theorem State.jumpTo_sp (a : Addr12) : (s.jumpTo a).sp = s.sp := rfl
@[simp] theorem State.jumpTo_stack (a : Addr12) : (s.jumpTo a).stack = s.stack := rfl
@[simp] theorem State.jumpTo_dt (a : Addr12) : (s.jumpTo a).dt = s.dt := rfl
@[simp] theorem State.jumpTo_st (a : Addr12) : (s.jumpTo a).st = s.st := rfl
@[simp] theorem State.jumpTo_disp (a : Addr12) : (s.jumpTo a).disp = s.disp := rfl
@[simp] theorem State.jumpTo_keys (a : Addr12) : (s.jumpTo a).keys = s.keys := rfl
@[simp] theorem State.jumpTo_mode (a : Addr12) : (s.jumpTo a).mode = s.mode := rfl
@[simp] theorem State.jumpTo_keysAtWait (a : Addr12) : (s.jumpTo a).keysAtWait = s.keysAtWait := rfl
@[simp] theorem State.jumpTo_draws (a : Addr12) : (s.jumpTo a).draws = s.draws := rfl

/-! ### countDraw -/

@[simp] theorem State.countDraw_params : (s.countDraw).params = s.params := rfl
@[simp] theorem State.countDraw_mem : (s.countDraw).mem = s.mem := rfl
@[simp] theorem State.countDraw_v : (s.countDraw).v = s.v := rfl
@[simp] theorem State.countDraw_i : (s.countDraw).i = s.i := rfl
@[simp] theorem State.countDraw_pc : (s.countDraw).pc = s.pc := rfl
@[simp] theorem State.countDraw_sp : (s.countDraw).sp = s.sp := rfl
@[simp] theorem State.countDraw_stack : (s.countDraw).stack = s.stack := rfl
@[simp] theorem State.countDraw_dt : (s.countDraw).dt = s.dt := rfl
@[simp] theorem State.countDraw_st : (s.countDraw).st = s.st := rfl
@[simp] theorem State.countDraw_disp : (s.countDraw).disp = s.disp := rfl
@[simp] theorem State.countDraw_keys : (s.countDraw).keys = s.keys := rfl
@[simp] theorem State.countDraw_mode : (s.countDraw).mode = s.mode := rfl
@[simp] theorem State.countDraw_keysAtWait : (s.countDraw).keysAtWait = s.keysAtWait := rfl
@[simp] theorem State.countDraw_draws : (s.countDraw).draws = s.draws + 1 := rfl

/-! ### raise -/

@[simp] theorem State.raise_params (c : FaultCause) (o : Option Word) (a : Option Nat) (b : Option Byte) : (s.raise c o a b).params = s.params := rfl
@[simp] theorem State.raise_mem (c : FaultCause) (o : Option Word) (a : Option Nat) (b : Option Byte) : (s.raise c o a b).mem = s.mem := rfl
@[simp] theorem State.raise_v (c : FaultCause) (o : Option Word) (a : Option Nat) (b : Option Byte) : (s.raise c o a b).v = s.v := rfl
@[simp] theorem State.raise_i (c : FaultCause) (o : Option Word) (a : Option Nat) (b : Option Byte) : (s.raise c o a b).i = s.i := rfl
@[simp] theorem State.raise_pc (c : FaultCause) (o : Option Word) (a : Option Nat) (b : Option Byte) : (s.raise c o a b).pc = s.pc := rfl
@[simp] theorem State.raise_sp (c : FaultCause) (o : Option Word) (a : Option Nat) (b : Option Byte) : (s.raise c o a b).sp = s.sp := rfl
@[simp] theorem State.raise_stack (c : FaultCause) (o : Option Word) (a : Option Nat) (b : Option Byte) : (s.raise c o a b).stack = s.stack := rfl
@[simp] theorem State.raise_dt (c : FaultCause) (o : Option Word) (a : Option Nat) (b : Option Byte) : (s.raise c o a b).dt = s.dt := rfl
@[simp] theorem State.raise_st (c : FaultCause) (o : Option Word) (a : Option Nat) (b : Option Byte) : (s.raise c o a b).st = s.st := rfl
@[simp] theorem State.raise_disp (c : FaultCause) (o : Option Word) (a : Option Nat) (b : Option Byte) : (s.raise c o a b).disp = s.disp := rfl
@[simp] theorem State.raise_keys (c : FaultCause) (o : Option Word) (a : Option Nat) (b : Option Byte) : (s.raise c o a b).keys = s.keys := rfl
@[simp] theorem State.raise_mode (c : FaultCause) (o : Option Word) (a : Option Nat) (b : Option Byte) : (s.raise c o a b).mode = .faulted { cause := c, pc := s.pc, opcode := o, addr := a, value := b } := rfl
@[simp] theorem State.raise_keysAtWait (c : FaultCause) (o : Option Word) (a : Option Nat) (b : Option Byte) : (s.raise c o a b).keysAtWait = s.keysAtWait := rfl
@[simp] theorem State.raise_draws (c : FaultCause) (o : Option Word) (a : Option Nat) (b : Option Byte) : (s.raise c o a b).draws = s.draws := rfl

/-! ### writeByte -/

@[simp] theorem State.writeByte_params (a : Nat) (b : Byte) : (s.writeByte a b).params = s.params := rfl
@[simp] theorem State.writeByte_mem (a : Nat) (b : Byte) : (s.writeByte a b).mem = Memory.write s.params s.mem a b := rfl
@[simp] theorem State.writeByte_v (a : Nat) (b : Byte) : (s.writeByte a b).v = s.v := rfl
@[simp] theorem State.writeByte_i (a : Nat) (b : Byte) : (s.writeByte a b).i = s.i := rfl
@[simp] theorem State.writeByte_pc (a : Nat) (b : Byte) : (s.writeByte a b).pc = s.pc := rfl
@[simp] theorem State.writeByte_sp (a : Nat) (b : Byte) : (s.writeByte a b).sp = s.sp := rfl
@[simp] theorem State.writeByte_stack (a : Nat) (b : Byte) : (s.writeByte a b).stack = s.stack := rfl
@[simp] theorem State.writeByte_dt (a : Nat) (b : Byte) : (s.writeByte a b).dt = s.dt := rfl
@[simp] theorem State.writeByte_st (a : Nat) (b : Byte) : (s.writeByte a b).st = s.st := rfl
@[simp] theorem State.writeByte_disp (a : Nat) (b : Byte) : (s.writeByte a b).disp = s.disp := rfl
@[simp] theorem State.writeByte_keys (a : Nat) (b : Byte) : (s.writeByte a b).keys = s.keys := rfl
@[simp] theorem State.writeByte_mode (a : Nat) (b : Byte) : (s.writeByte a b).mode = s.mode := rfl
@[simp] theorem State.writeByte_keysAtWait (a : Nat) (b : Byte) : (s.writeByte a b).keysAtWait = s.keysAtWait := rfl
@[simp] theorem State.writeByte_draws (a : Nat) (b : Byte) : (s.writeByte a b).draws = s.draws := rfl

/-! ### setFlag -/

@[simp] theorem State.setFlag_params (b : Bool) : (s.setFlag b).params = s.params := rfl
@[simp] theorem State.setFlag_mem (b : Bool) : (s.setFlag b).mem = s.mem := rfl
@[simp] theorem State.setFlag_i (b : Bool) : (s.setFlag b).i = s.i := rfl
@[simp] theorem State.setFlag_pc (b : Bool) : (s.setFlag b).pc = s.pc := rfl
@[simp] theorem State.setFlag_sp (b : Bool) : (s.setFlag b).sp = s.sp := rfl
@[simp] theorem State.setFlag_stack (b : Bool) : (s.setFlag b).stack = s.stack := rfl
@[simp] theorem State.setFlag_dt (b : Bool) : (s.setFlag b).dt = s.dt := rfl
@[simp] theorem State.setFlag_st (b : Bool) : (s.setFlag b).st = s.st := rfl
@[simp] theorem State.setFlag_disp (b : Bool) : (s.setFlag b).disp = s.disp := rfl
@[simp] theorem State.setFlag_keys (b : Bool) : (s.setFlag b).keys = s.keys := rfl
@[simp] theorem State.setFlag_mode (b : Bool) : (s.setFlag b).mode = s.mode := rfl
@[simp] theorem State.setFlag_keysAtWait (b : Bool) : (s.setFlag b).keysAtWait = s.keysAtWait := rfl
@[simp] theorem State.setFlag_draws (b : Bool) : (s.setFlag b).draws = s.draws := rfl

/-! ### setResultFlag -/

@[simp] theorem State.setResultFlag_params (x : Reg) (r : Byte) (b : Bool) : (s.setResultFlag x r b).params = s.params := rfl
@[simp] theorem State.setResultFlag_mem (x : Reg) (r : Byte) (b : Bool) : (s.setResultFlag x r b).mem = s.mem := rfl
@[simp] theorem State.setResultFlag_i (x : Reg) (r : Byte) (b : Bool) : (s.setResultFlag x r b).i = s.i := rfl
@[simp] theorem State.setResultFlag_pc (x : Reg) (r : Byte) (b : Bool) : (s.setResultFlag x r b).pc = s.pc := rfl
@[simp] theorem State.setResultFlag_sp (x : Reg) (r : Byte) (b : Bool) : (s.setResultFlag x r b).sp = s.sp := rfl
@[simp] theorem State.setResultFlag_stack (x : Reg) (r : Byte) (b : Bool) : (s.setResultFlag x r b).stack = s.stack := rfl
@[simp] theorem State.setResultFlag_dt (x : Reg) (r : Byte) (b : Bool) : (s.setResultFlag x r b).dt = s.dt := rfl
@[simp] theorem State.setResultFlag_st (x : Reg) (r : Byte) (b : Bool) : (s.setResultFlag x r b).st = s.st := rfl
@[simp] theorem State.setResultFlag_disp (x : Reg) (r : Byte) (b : Bool) : (s.setResultFlag x r b).disp = s.disp := rfl
@[simp] theorem State.setResultFlag_keys (x : Reg) (r : Byte) (b : Bool) : (s.setResultFlag x r b).keys = s.keys := rfl
@[simp] theorem State.setResultFlag_mode (x : Reg) (r : Byte) (b : Bool) : (s.setResultFlag x r b).mode = s.mode := rfl
@[simp] theorem State.setResultFlag_keysAtWait (x : Reg) (r : Byte) (b : Bool) : (s.setResultFlag x r b).keysAtWait = s.keysAtWait := rfl
@[simp] theorem State.setResultFlag_draws (x : Reg) (r : Byte) (b : Bool) : (s.setResultFlag x r b).draws = s.draws := rfl

/-! ### loadRegs -/

@[simp] theorem State.loadRegs_params (a : Nat) (x : Reg) : (s.loadRegs a x).params = s.params := rfl
@[simp] theorem State.loadRegs_mem (a : Nat) (x : Reg) : (s.loadRegs a x).mem = s.mem := rfl
@[simp] theorem State.loadRegs_i (a : Nat) (x : Reg) : (s.loadRegs a x).i = s.i := rfl
@[simp] theorem State.loadRegs_pc (a : Nat) (x : Reg) : (s.loadRegs a x).pc = s.pc := rfl
@[simp] theorem State.loadRegs_sp (a : Nat) (x : Reg) : (s.loadRegs a x).sp = s.sp := rfl
@[simp] theorem State.loadRegs_stack (a : Nat) (x : Reg) : (s.loadRegs a x).stack = s.stack := rfl
@[simp] theorem State.loadRegs_dt (a : Nat) (x : Reg) : (s.loadRegs a x).dt = s.dt := rfl
@[simp] theorem State.loadRegs_st (a : Nat) (x : Reg) : (s.loadRegs a x).st = s.st := rfl
@[simp] theorem State.loadRegs_disp (a : Nat) (x : Reg) : (s.loadRegs a x).disp = s.disp := rfl
@[simp] theorem State.loadRegs_keys (a : Nat) (x : Reg) : (s.loadRegs a x).keys = s.keys := rfl
@[simp] theorem State.loadRegs_mode (a : Nat) (x : Reg) : (s.loadRegs a x).mode = s.mode := rfl
@[simp] theorem State.loadRegs_keysAtWait (a : Nat) (x : Reg) : (s.loadRegs a x).keysAtWait = s.keysAtWait := rfl
@[simp] theorem State.loadRegs_draws (a : Nat) (x : Reg) : (s.loadRegs a x).draws = s.draws := rfl

/-! ### tick -/

@[simp] theorem State.tick_params : (s.tick).params = s.params := rfl
@[simp] theorem State.tick_mem : (s.tick).mem = s.mem := rfl
@[simp] theorem State.tick_v : (s.tick).v = s.v := rfl
@[simp] theorem State.tick_i : (s.tick).i = s.i := rfl
@[simp] theorem State.tick_pc : (s.tick).pc = s.pc := rfl
@[simp] theorem State.tick_sp : (s.tick).sp = s.sp := rfl
@[simp] theorem State.tick_stack : (s.tick).stack = s.stack := rfl
@[simp] theorem State.tick_dt : (s.tick).dt = tickByte s.dt := rfl
@[simp] theorem State.tick_st : (s.tick).st = tickByte s.st := rfl
@[simp] theorem State.tick_disp : (s.tick).disp = s.disp := rfl
@[simp] theorem State.tick_keys : (s.tick).keys = s.keys := rfl
@[simp] theorem State.tick_mode : (s.tick).mode = s.mode := rfl
@[simp] theorem State.tick_keysAtWait : (s.tick).keysAtWait = s.keysAtWait := rfl
@[simp] theorem State.tick_draws : (s.tick).draws = s.draws := rfl

/-! ### withKey -/

@[simp] theorem State.withKey_params (k : Key) (b : Bool) : (s.withKey k b).params = s.params := rfl
@[simp] theorem State.withKey_mem (k : Key) (b : Bool) : (s.withKey k b).mem = s.mem := rfl
@[simp] theorem State.withKey_v (k : Key) (b : Bool) : (s.withKey k b).v = s.v := rfl
@[simp] theorem State.withKey_i (k : Key) (b : Bool) : (s.withKey k b).i = s.i := rfl
@[simp] theorem State.withKey_pc (k : Key) (b : Bool) : (s.withKey k b).pc = s.pc := rfl
@[simp] theorem State.withKey_sp (k : Key) (b : Bool) : (s.withKey k b).sp = s.sp := rfl
@[simp] theorem State.withKey_stack (k : Key) (b : Bool) : (s.withKey k b).stack = s.stack := rfl
@[simp] theorem State.withKey_dt (k : Key) (b : Bool) : (s.withKey k b).dt = s.dt := rfl
@[simp] theorem State.withKey_st (k : Key) (b : Bool) : (s.withKey k b).st = s.st := rfl
@[simp] theorem State.withKey_disp (k : Key) (b : Bool) : (s.withKey k b).disp = s.disp := rfl
@[simp] theorem State.withKey_keys (k : Key) (b : Bool) : (s.withKey k b).keys = s.keys.set k.val b := rfl
@[simp] theorem State.withKey_mode (k : Key) (b : Bool) : (s.withKey k b).mode = s.mode := rfl
@[simp] theorem State.withKey_keysAtWait (k : Key) (b : Bool) : (s.withKey k b).keysAtWait = s.keysAtWait := rfl
@[simp] theorem State.withKey_draws (k : Key) (b : Bool) : (s.withKey k b).draws = s.draws := rfl

/-! ### endWait -/

@[simp] theorem State.endWait_params (x : Reg) (k : Key) : (s.endWait x k).params = s.params := rfl
@[simp] theorem State.endWait_mem (x : Reg) (k : Key) : (s.endWait x k).mem = s.mem := rfl
@[simp] theorem State.endWait_i (x : Reg) (k : Key) : (s.endWait x k).i = s.i := rfl
@[simp] theorem State.endWait_pc (x : Reg) (k : Key) : (s.endWait x k).pc = s.pc + 2 := rfl
@[simp] theorem State.endWait_sp (x : Reg) (k : Key) : (s.endWait x k).sp = s.sp := rfl
@[simp] theorem State.endWait_stack (x : Reg) (k : Key) : (s.endWait x k).stack = s.stack := rfl
@[simp] theorem State.endWait_dt (x : Reg) (k : Key) : (s.endWait x k).dt = s.dt := rfl
@[simp] theorem State.endWait_st (x : Reg) (k : Key) : (s.endWait x k).st = s.st := rfl
@[simp] theorem State.endWait_disp (x : Reg) (k : Key) : (s.endWait x k).disp = s.disp := rfl
@[simp] theorem State.endWait_keys (x : Reg) (k : Key) : (s.endWait x k).keys = s.keys := rfl
@[simp] theorem State.endWait_mode (x : Reg) (k : Key) : (s.endWait x k).mode = .running := rfl
@[simp] theorem State.endWait_keysAtWait (x : Reg) (k : Key) : (s.endWait x k).keysAtWait = s.keysAtWait := rfl
@[simp] theorem State.endWait_draws (x : Reg) (k : Key) : (s.endWait x k).draws = s.draws + 1 := rfl

/-! ### resetLogicFlag -/

@[simp] theorem State.resetLogicFlag_params : (s.resetLogicFlag).params = s.params := by unfold State.resetLogicFlag; split <;> rfl
@[simp] theorem State.resetLogicFlag_mem : (s.resetLogicFlag).mem = s.mem := by unfold State.resetLogicFlag; split <;> rfl
@[simp] theorem State.resetLogicFlag_i : (s.resetLogicFlag).i = s.i := by unfold State.resetLogicFlag; split <;> rfl
@[simp] theorem State.resetLogicFlag_pc : (s.resetLogicFlag).pc = s.pc := by unfold State.resetLogicFlag; split <;> rfl
@[simp] theorem State.resetLogicFlag_sp : (s.resetLogicFlag).sp = s.sp := by unfold State.resetLogicFlag; split <;> rfl
@[simp] theorem State.resetLogicFlag_stack : (s.resetLogicFlag).stack = s.stack := by unfold State.resetLogicFlag; split <;> rfl
@[simp] theorem State.resetLogicFlag_dt : (s.resetLogicFlag).dt = s.dt := by unfold State.resetLogicFlag; split <;> rfl
@[simp] theorem State.resetLogicFlag_st : (s.resetLogicFlag).st = s.st := by unfold State.resetLogicFlag; split <;> rfl
@[simp] theorem State.resetLogicFlag_disp : (s.resetLogicFlag).disp = s.disp := by unfold State.resetLogicFlag; split <;> rfl
@[simp] theorem State.resetLogicFlag_keys : (s.resetLogicFlag).keys = s.keys := by unfold State.resetLogicFlag; split <;> rfl
@[simp] theorem State.resetLogicFlag_mode : (s.resetLogicFlag).mode = s.mode := by unfold State.resetLogicFlag; split <;> rfl
@[simp] theorem State.resetLogicFlag_keysAtWait : (s.resetLogicFlag).keysAtWait = s.keysAtWait := by unfold State.resetLogicFlag; split <;> rfl
@[simp] theorem State.resetLogicFlag_draws : (s.resetLogicFlag).draws = s.draws := by unfold State.resetLogicFlag; split <;> rfl

/-! ### advanceIndex -/

@[simp] theorem State.advanceIndex_params (x : Reg) : (s.advanceIndex x).params = s.params := by unfold State.advanceIndex; split <;> rfl
@[simp] theorem State.advanceIndex_mem (x : Reg) : (s.advanceIndex x).mem = s.mem := by unfold State.advanceIndex; split <;> rfl
@[simp] theorem State.advanceIndex_v (x : Reg) : (s.advanceIndex x).v = s.v := by unfold State.advanceIndex; split <;> rfl
@[simp] theorem State.advanceIndex_pc (x : Reg) : (s.advanceIndex x).pc = s.pc := by unfold State.advanceIndex; split <;> rfl
@[simp] theorem State.advanceIndex_sp (x : Reg) : (s.advanceIndex x).sp = s.sp := by unfold State.advanceIndex; split <;> rfl
@[simp] theorem State.advanceIndex_stack (x : Reg) : (s.advanceIndex x).stack = s.stack := by unfold State.advanceIndex; split <;> rfl
@[simp] theorem State.advanceIndex_dt (x : Reg) : (s.advanceIndex x).dt = s.dt := by unfold State.advanceIndex; split <;> rfl
@[simp] theorem State.advanceIndex_st (x : Reg) : (s.advanceIndex x).st = s.st := by unfold State.advanceIndex; split <;> rfl
@[simp] theorem State.advanceIndex_disp (x : Reg) : (s.advanceIndex x).disp = s.disp := by unfold State.advanceIndex; split <;> rfl
@[simp] theorem State.advanceIndex_keys (x : Reg) : (s.advanceIndex x).keys = s.keys := by unfold State.advanceIndex; split <;> rfl
@[simp] theorem State.advanceIndex_mode (x : Reg) : (s.advanceIndex x).mode = s.mode := by unfold State.advanceIndex; split <;> rfl
@[simp] theorem State.advanceIndex_keysAtWait (x : Reg) : (s.advanceIndex x).keysAtWait = s.keysAtWait := by unfold State.advanceIndex; split <;> rfl
@[simp] theorem State.advanceIndex_draws (x : Reg) : (s.advanceIndex x).draws = s.draws := by unfold State.advanceIndex; split <;> rfl

/-! ### latchKeys -/

@[simp] theorem State.latchKeys_params : (s.latchKeys).params = s.params := by unfold State.latchKeys; split <;> rfl
@[simp] theorem State.latchKeys_mem : (s.latchKeys).mem = s.mem := by unfold State.latchKeys; split <;> rfl
@[simp] theorem State.latchKeys_v : (s.latchKeys).v = s.v := by unfold State.latchKeys; split <;> rfl
@[simp] theorem State.latchKeys_i : (s.latchKeys).i = s.i := by unfold State.latchKeys; split <;> rfl
@[simp] theorem State.latchKeys_pc : (s.latchKeys).pc = s.pc := by unfold State.latchKeys; split <;> rfl
@[simp] theorem State.latchKeys_sp : (s.latchKeys).sp = s.sp := by unfold State.latchKeys; split <;> rfl
@[simp] theorem State.latchKeys_stack : (s.latchKeys).stack = s.stack := by unfold State.latchKeys; split <;> rfl
@[simp] theorem State.latchKeys_dt : (s.latchKeys).dt = s.dt := by unfold State.latchKeys; split <;> rfl
@[simp] theorem State.latchKeys_st : (s.latchKeys).st = s.st := by unfold State.latchKeys; split <;> rfl
@[simp] theorem State.latchKeys_disp : (s.latchKeys).disp = s.disp := by unfold State.latchKeys; split <;> rfl
@[simp] theorem State.latchKeys_keys : (s.latchKeys).keys = s.keys := by unfold State.latchKeys; split <;> rfl
@[simp] theorem State.latchKeys_mode : (s.latchKeys).mode = s.mode := by unfold State.latchKeys; split <;> rfl
@[simp] theorem State.latchKeys_draws : (s.latchKeys).draws = s.draws := by unfold State.latchKeys; split <;> rfl

/-- I after `FX55` and `FX65`. -/
theorem State.advanceIndex_i (x : Reg) :
    (s.advanceIndex x).i = if s.params.loadStoreAdvanceI then s.i + BitVec.ofNat 16 (x.val + 1) else s.i := by
  unfold State.advanceIndex; split <;> rfl

/-! ### writeBytes -/

@[simp] theorem State.writeBytes_params (a : Nat) (bs : List Byte) : (s.writeBytes a bs).params = s.params := by
  induction bs generalizing s a with
  | nil => rfl
  | cons b bs ih => simp [State.writeBytes, ih]

@[simp] theorem State.writeBytes_v (a : Nat) (bs : List Byte) : (s.writeBytes a bs).v = s.v := by
  induction bs generalizing s a with
  | nil => rfl
  | cons b bs ih => simp [State.writeBytes, ih]

@[simp] theorem State.writeBytes_i (a : Nat) (bs : List Byte) : (s.writeBytes a bs).i = s.i := by
  induction bs generalizing s a with
  | nil => rfl
  | cons b bs ih => simp [State.writeBytes, ih]

@[simp] theorem State.writeBytes_pc (a : Nat) (bs : List Byte) : (s.writeBytes a bs).pc = s.pc := by
  induction bs generalizing s a with
  | nil => rfl
  | cons b bs ih => simp [State.writeBytes, ih]

@[simp] theorem State.writeBytes_sp (a : Nat) (bs : List Byte) : (s.writeBytes a bs).sp = s.sp := by
  induction bs generalizing s a with
  | nil => rfl
  | cons b bs ih => simp [State.writeBytes, ih]

@[simp] theorem State.writeBytes_stack (a : Nat) (bs : List Byte) : (s.writeBytes a bs).stack = s.stack := by
  induction bs generalizing s a with
  | nil => rfl
  | cons b bs ih => simp [State.writeBytes, ih]

@[simp] theorem State.writeBytes_dt (a : Nat) (bs : List Byte) : (s.writeBytes a bs).dt = s.dt := by
  induction bs generalizing s a with
  | nil => rfl
  | cons b bs ih => simp [State.writeBytes, ih]

@[simp] theorem State.writeBytes_st (a : Nat) (bs : List Byte) : (s.writeBytes a bs).st = s.st := by
  induction bs generalizing s a with
  | nil => rfl
  | cons b bs ih => simp [State.writeBytes, ih]

@[simp] theorem State.writeBytes_disp (a : Nat) (bs : List Byte) : (s.writeBytes a bs).disp = s.disp := by
  induction bs generalizing s a with
  | nil => rfl
  | cons b bs ih => simp [State.writeBytes, ih]

@[simp] theorem State.writeBytes_keys (a : Nat) (bs : List Byte) : (s.writeBytes a bs).keys = s.keys := by
  induction bs generalizing s a with
  | nil => rfl
  | cons b bs ih => simp [State.writeBytes, ih]

@[simp] theorem State.writeBytes_mode (a : Nat) (bs : List Byte) : (s.writeBytes a bs).mode = s.mode := by
  induction bs generalizing s a with
  | nil => rfl
  | cons b bs ih => simp [State.writeBytes, ih]

@[simp] theorem State.writeBytes_keysAtWait (a : Nat) (bs : List Byte) : (s.writeBytes a bs).keysAtWait = s.keysAtWait := by
  induction bs generalizing s a with
  | nil => rfl
  | cons b bs ih => simp [State.writeBytes, ih]

@[simp] theorem State.writeBytes_draws (a : Nat) (bs : List Byte) : (s.writeBytes a bs).draws = s.draws := by
  induction bs generalizing s a with
  | nil => rfl
  | cons b bs ih => simp [State.writeBytes, ih]

/-! ### What the accessors read after an update -/

theorem State.getV_setV (x y : Reg) (b : Byte) : (s.setV x b).getV y = if y = x then b else s.getV y := by
  simp only [State.getV, State.setV, Vector.getElem_set]
  by_cases h : y = x
  · simp [h]
  · rw [if_neg h, if_neg (fun e => h (Fin.ext e.symm))]

@[simp] theorem State.getV_setV_same (x : Reg) (b : Byte) : (s.setV x b).getV x = b := by simp [State.getV_setV]

/-- VF after a result and its flag is the flag, whatever x is (41_alu R130). -/
@[simp] theorem State.getV_setResultFlag_flag (x : Reg) (r : Byte) (b : Bool) :
    (s.setResultFlag x r b).getV regF = flagByte b := by simp [State.setResultFlag, State.setFlag]

theorem State.getV_setResultFlag (x y : Reg) (r : Byte) (b : Bool) :
    (s.setResultFlag x r b).getV y = if y = regF then flagByte b else if y = x then r else s.getV y := by
  simp [State.setResultFlag, State.setFlag, State.getV_setV]

/-- A register after a load of V0..Vx (42_index_memory R166). -/
theorem State.getV_loadRegs (a : Nat) (x y : Reg) :
    (s.loadRegs a x).getV y = if y ≤ x then s.readByte (a + y.val) else s.getV y := by
  simp only [State.getV, State.loadRegs, Vector.getElem_ofFn]
  rfl

/-- Registers are read from `v` alone. -/
theorem State.getV_congr {s t : State} (h : t.v = s.v) (x : Reg) : t.getV x = s.getV x := by simp [State.getV, h]

/-- Memory is read from `params` and `mem` alone. -/
theorem State.readByte_congr {s t : State} (hp : t.params = s.params) (hm : t.mem = s.mem) (a : Nat) :
    t.readByte a = s.readByte a := by simp [State.readByte, hp, hm]

/-- Bytes in a row are read one by one. -/
theorem State.readBytes_congr {s t : State} (h : ∀ a, t.readByte a = s.readByte a) (a n : Nat) :
    t.readBytes a n = s.readBytes a n := by
  induction n generalizing a with
  | zero => rfl
  | succ n ih => simp [State.readBytes, h, ih]

@[simp] theorem State.setV_readByte (x : Reg) (b : Byte) (a : Nat) : (s.setV x b).readByte a = s.readByte a :=
  State.readByte_congr (by simp) (by simp) a
@[simp] theorem State.advance_readByte (a : Nat) : (s.advance).readByte a = s.readByte a :=
  State.readByte_congr (by simp) (by simp) a
@[simp] theorem State.skipIf_readByte (c : Bool) (a : Nat) : (s.skipIf c).readByte a = s.readByte a :=
  State.readByte_congr (by simp) (by simp) a
@[simp] theorem State.jumpTo_readByte (j : Addr12) (a : Nat) : (s.jumpTo j).readByte a = s.readByte a :=
  State.readByte_congr (by simp) (by simp) a
@[simp] theorem State.countDraw_readByte (a : Nat) : (s.countDraw).readByte a = s.readByte a :=
  State.readByte_congr (by simp) (by simp) a
@[simp] theorem State.raise_readByte (c : FaultCause) (o : Option Word) (n : Option Nat) (b : Option Byte) (a : Nat) : (s.raise c o n b).readByte a = s.readByte a :=
  State.readByte_congr (by simp) (by simp) a
@[simp] theorem State.setFlag_readByte (b : Bool) (a : Nat) : (s.setFlag b).readByte a = s.readByte a :=
  State.readByte_congr (by simp) (by simp) a
@[simp] theorem State.setResultFlag_readByte (x : Reg) (r : Byte) (b : Bool) (a : Nat) : (s.setResultFlag x r b).readByte a = s.readByte a :=
  State.readByte_congr (by simp) (by simp) a
@[simp] theorem State.loadRegs_readByte (n : Nat) (x : Reg) (a : Nat) : (s.loadRegs n x).readByte a = s.readByte a :=
  State.readByte_congr (by simp) (by simp) a
@[simp] theorem State.tick_readByte (a : Nat) : (s.tick).readByte a = s.readByte a :=
  State.readByte_congr (by simp) (by simp) a
@[simp] theorem State.endWait_readByte (x : Reg) (k : Key) (a : Nat) : (s.endWait x k).readByte a = s.readByte a :=
  State.readByte_congr (by simp) (by simp) a
@[simp] theorem State.resetLogicFlag_readByte (a : Nat) : (s.resetLogicFlag).readByte a = s.readByte a :=
  State.readByte_congr (by simp) (by simp) a
@[simp] theorem State.advanceIndex_readByte (x : Reg) (a : Nat) : (s.advanceIndex x).readByte a = s.readByte a :=
  State.readByte_congr (by simp) (by simp) a
@[simp] theorem State.latchKeys_readByte (a : Nat) : (s.latchKeys).readByte a = s.readByte a :=
  State.readByte_congr (by simp) (by simp) a

@[simp] theorem State.withKey_readByte (k : Key) (b : Bool) (a : Nat) : (s.withKey k b).readByte a = s.readByte a :=
  State.readByte_congr (by simp) (by simp) a

@[simp] theorem State.advance_getV (x : Reg) : (s.advance).getV x = s.getV x :=
  State.getV_congr (by simp) x
@[simp] theorem State.skipIf_getV (c : Bool) (x : Reg) : (s.skipIf c).getV x = s.getV x :=
  State.getV_congr (by simp) x
@[simp] theorem State.jumpTo_getV (j : Addr12) (x : Reg) : (s.jumpTo j).getV x = s.getV x :=
  State.getV_congr (by simp) x
@[simp] theorem State.countDraw_getV (x : Reg) : (s.countDraw).getV x = s.getV x :=
  State.getV_congr (by simp) x
@[simp] theorem State.raise_getV (c : FaultCause) (o : Option Word) (n : Option Nat) (b : Option Byte) (x : Reg) : (s.raise c o n b).getV x = s.getV x :=
  State.getV_congr (by simp) x
@[simp] theorem State.writeByte_getV (a : Nat) (b : Byte) (x : Reg) : (s.writeByte a b).getV x = s.getV x :=
  State.getV_congr (by simp) x
@[simp] theorem State.writeBytes_getV (a : Nat) (bs : List Byte) (x : Reg) : (s.writeBytes a bs).getV x = s.getV x :=
  State.getV_congr (by simp) x
@[simp] theorem State.tick_getV (x : Reg) : (s.tick).getV x = s.getV x :=
  State.getV_congr (by simp) x
@[simp] theorem State.advanceIndex_getV (y : Reg) (x : Reg) : (s.advanceIndex y).getV x = s.getV x :=
  State.getV_congr (by simp) x
@[simp] theorem State.latchKeys_getV (x : Reg) : (s.latchKeys).getV x = s.getV x :=
  State.getV_congr (by simp) x
@[simp] theorem State.withKey_getV (k : Key) (b : Bool) (x : Reg) : (s.withKey k b).getV x = s.getV x :=
  State.getV_congr (by simp) x

end Sys2Proof.Machine
end

