-- ==== Sys2Proof/Laws/Memory.lean ====
section
/-! SUPPORT. Memory: a read after a write, and the canonical form kept by every operation. -/

namespace Sys2Proof.Machine

theorem Memory.lookup_erase (m : Memory) (a b : Nat) :
    Memory.lookup (Memory.erase m a) b = if b = a then none else Memory.lookup m b := by
  induction m with
  | nil => simp [Memory.erase, Memory.lookup]
  | cons c m ih =>
    obtain ⟨k, v⟩ := c
    by_cases hk : k = a <;> by_cases hb : b = a <;> simp_all [Memory.erase, Memory.lookup]
    exact fun h => absurd h.symm hb

/-- In a memory whose addresses all lie above `a`, nothing is listed at `a`. -/
theorem Memory.lookup_none_of_lt {m : Memory} {a : Nat} (h : ∀ c ∈ m, a < c.1) : Memory.lookup m a = none := by
  induction m with
  | nil => rfl
  | cons c m ih =>
    obtain ⟨k, v⟩ := c
    have hk : a < k := h (k, v) (by simp)
    simp [Memory.lookup, Nat.ne_of_gt hk, ih fun c hc => h c (by simp [hc])]

theorem Memory.lookup_insert (m : Memory) (a : Nat) (v : Byte) (b : Nat) :
    Memory.lookup (Memory.insert m a v) b = if b = a then some v else Memory.lookup m b := by
  induction m with
  | nil => by_cases hb : b = a <;> simp [Memory.insert, Memory.lookup, hb, Ne.symm]
  | cons c m ih =>
    obtain ⟨k, u⟩ := c
    unfold Memory.insert
    split
    · by_cases hb : b = a
      · simp [Memory.lookup, hb]
      · simp [Memory.lookup, hb, Ne.symm hb]
    · split
      · rename_i h
        subst h
        by_cases hb : b = a
        · simp [Memory.lookup, hb]
        · simp [Memory.lookup, hb, Ne.symm hb]
      · rename_i h
        by_cases hk : k = b
        · subst hk
          simp [Memory.lookup, Ne.symm h]
        · simp [Memory.lookup, hk, ih]

theorem Memory.read_write (p : Params) (m : Memory) (a : Nat) (v : Byte) (b : Nat) :
    Memory.read p (Memory.write p m a v) b = if b = a then v else Memory.read p m b := by
  unfold Memory.write Memory.read
  split
  · rename_i h
    by_cases hb : b = a
    · simp [Memory.lookup_erase, hb, h]
    · simp [Memory.lookup_erase, hb]
  · by_cases hb : b = a
    · simp [Memory.lookup_insert, hb]
    · simp [Memory.lookup_insert, hb]

/-! ### The canonical form -/

theorem Memory.mem_erase {m : Memory} {a : Nat} {c : Host.Cell} (h : c ∈ Memory.erase m a) : c ∈ m ∧ c.1 ≠ a := by
  induction m with
  | nil => simp [Memory.erase] at h
  | cons d m ih =>
    obtain ⟨k, v⟩ := d
    unfold Memory.erase at h
    split at h
    · exact ⟨List.mem_cons_of_mem _ (ih h).1, (ih h).2⟩
    · rcases List.mem_cons.mp h with rfl | h
      · exact ⟨by simp, ‹_›⟩
      · exact ⟨List.mem_cons_of_mem _ (ih h).1, (ih h).2⟩

theorem Memory.mem_insert {m : Memory} {a : Nat} {v : Byte} {c : Host.Cell} (h : c ∈ Memory.insert m a v) :
    c = (a, v) ∨ c ∈ m := by
  induction m with
  | nil => simpa [Memory.insert] using h
  | cons d m ih =>
    obtain ⟨k, u⟩ := d
    unfold Memory.insert at h
    split at h
    · simpa using h
    · split at h
      · rcases List.mem_cons.mp h with rfl | h
        · exact .inl rfl
        · exact .inr (List.mem_cons_of_mem _ h)
      · rcases List.mem_cons.mp h with rfl | h
        · exact .inr (by simp)
        · exact (ih h).imp_right (List.mem_cons_of_mem _)

theorem Memory.erase_sorted {m : Memory} (a : Nat) (h : m.Pairwise fun c d => c.1 < d.1) :
    (Memory.erase m a).Pairwise fun c d => c.1 < d.1 := by
  induction m with
  | nil => exact .nil
  | cons c m ih =>
    obtain ⟨k, v⟩ := c
    rw [List.pairwise_cons] at h
    unfold Memory.erase
    split
    · exact ih h.2
    · exact .cons (fun d hd => h.1 d (Memory.mem_erase hd).1) (ih h.2)

theorem Memory.insert_sorted {m : Memory} (a : Nat) (v : Byte) (h : m.Pairwise fun c d => c.1 < d.1) :
    (Memory.insert m a v).Pairwise fun c d => c.1 < d.1 := by
  induction m with
  | nil => simp [Memory.insert]
  | cons c m ih =>
    obtain ⟨k, u⟩ := c
    rw [List.pairwise_cons] at h
    unfold Memory.insert
    split
    · rename_i hlt
      refine .cons (fun d hd => ?_) (.cons h.1 h.2)
      rcases List.mem_cons.mp hd with rfl | hd
      · exact hlt
      · exact Nat.lt_trans hlt (h.1 d hd)
    · split
      · rename_i heq
        subst heq
        exact .cons h.1 h.2
      · rename_i hlt hne
        refine .cons (fun d hd => ?_) (ih h.2)
        rcases Memory.mem_insert hd with rfl | hd
        · show k < a
          omega
        · exact h.1 d hd

/-- The canonical form in words. -/
theorem Memory.wf_iff (p : Params) (m : Memory) :
    Memory.wf p m = true ↔ (m.Pairwise fun c d => c.1 < d.1) ∧ ∀ c ∈ m, c.1 < memSize ∧ c.2 ≠ resetByte p c.1 := by
  simp [Memory.wf]

theorem Memory.wf_nil (p : Params) : Memory.wf p [] = true := rfl

/-- A write inside memory keeps the canonical form. -/
theorem Memory.wf_write {p : Params} {m : Memory} {a : Nat} (v : Byte) (ha : a < memSize) (h : Memory.wf p m = true) :
    Memory.wf p (Memory.write p m a v) = true := by
  rw [Memory.wf_iff] at h ⊢
  unfold Memory.write
  split
  · exact ⟨Memory.erase_sorted a h.1, fun c hc => h.2 c (Memory.mem_erase hc).1⟩
  · rename_i hv
    refine ⟨Memory.insert_sorted a v h.1, fun c hc => ?_⟩
    rcases Memory.mem_insert hc with rfl | hc
    · exact ⟨ha, hv⟩
    · exact h.2 c hc

/-! ### State's memory operations -/

theorem State.readByte_writeByte (s : State) (a : Nat) (b : Byte) (c : Nat) :
    (s.writeByte a b).readByte c = if c = a then b else s.readByte c :=
  Memory.read_write s.params s.mem a b c

theorem State.wf_writeByte {s : State} {a : Nat} (b : Byte) (ha : a < memSize) (h : Memory.wf s.params s.mem = true) :
    Memory.wf s.params (s.writeByte a b).mem = true := Memory.wf_write b ha h

/-- A byte outside the bytes written reads as before. -/
theorem State.readByte_writeBytes_outside (s : State) (a : Nat) (bs : List Byte) (c : Nat)
    (h : c < a ∨ a + bs.length ≤ c) : (s.writeBytes a bs).readByte c = s.readByte c := by
  induction bs generalizing s a with
  | nil => rfl
  | cons b bs ih =>
    rw [List.length_cons] at h
    rw [State.writeBytes, ih _ _ (by omega), State.readByte_writeByte, if_neg (by omega)]

/-- A byte written reads as written. -/
theorem State.readByte_writeBytes (s : State) (a : Nat) (bs : List Byte) (k : Nat) (h : k < bs.length) :
    (s.writeBytes a bs).readByte (a + k) = bs[k] := by
  induction bs generalizing s a k with
  | nil => simp at h
  | cons b bs ih =>
    cases k with
    | zero => simp [State.writeBytes, State.readByte_writeBytes_outside, State.readByte_writeByte]
    | succ k =>
      have := ih (s.writeByte a b) (a + 1) k (by simpa using h)
      rw [State.writeBytes, show a + (k + 1) = a + 1 + k by omega, this]
      rfl

/-- Writing bytes inside memory keeps the canonical form. -/
theorem State.wf_writeBytes {s : State} {a : Nat} (bs : List Byte) (ha : a + bs.length ≤ memSize)
    (h : Memory.wf s.params s.mem = true) : Memory.wf s.params (s.writeBytes a bs).mem = true := by
  induction bs generalizing s a with
  | nil => exact h
  | cons b bs ih =>
    rw [List.length_cons] at ha
    exact ih (s := s.writeByte a b) (by omega) (State.wf_writeByte b (by omega) h)

/-- The bytes `MemRead(a, n)` gives. -/
theorem State.getElem_readBytes (s : State) (a n k : Nat) (h : k < (s.readBytes a n).length) :
    (s.readBytes a n)[k] = s.readByte (a + k) := by
  induction n generalizing a k with
  | zero => simp [State.readBytes] at h
  | succ n ih =>
    cases k with
    | zero => rfl
    | succ k =>
      have := ih (a + 1) k (by simpa [State.readBytes] using h)
      simp only [State.readBytes, List.getElem_cons_succ, this]
      congr 1
      omega

@[simp] theorem State.length_readBytes (s : State) (a n : Nat) : (s.readBytes a n).length = n := by
  induction n generalizing a with
  | zero => rfl
  | succ n ih => simp [State.readBytes, ih]

/-- At reset every byte reads as the reset contents, and memory has its canonical form. -/
theorem State.resetWith_readByte (p : Params) (a : Nat) : (State.resetWith p).readByte a = resetByte p a := rfl

theorem State.reset_wf : Memory.wf State.reset.params State.reset.mem = true := rfl

end Sys2Proof.Machine
end

