-- ==== Sys2Proof/Laws/Ops.lean ====
section
/-! SUPPORT. What the shared operations can do, once: the access checks, the fetch, the operand forms, the wait. -/

namespace Sys2Proof.Machine

/-! ### Access checks (42_index_memory R160) -/

/-- A range passes exactly when every one of its bytes passes. -/
theorem checkRange_eq_none (p : Params) (k : Access) (a n : Nat) :
    checkRange p k a n = none ↔ ∀ j, j < n → checkByte p k (a + j) = none := by
  induction n generalizing a with
  | zero => simp [checkRange]
  | succ n ih =>
    unfold checkRange
    split
    · rename_i c h
      exact ⟨fun e => (by cases e), fun e => absurd (e 0 (by omega)) (by simp [h])⟩
    · rename_i h
      rw [ih]
      constructor
      · intro e j hj
        cases j with
        | zero => exact h
        | succ j => simpa [Nat.add_assoc, Nat.add_comm 1 j] using e j (by omega)
      · intro e j hj
        simpa [Nat.add_assoc, Nat.add_comm 1 j] using e (j + 1) (by omega)

/-- A failing range reports its first failing byte. -/
theorem checkRange_eq_some {p : Params} {k : Access} {a n bad : Nat} {c : FaultCause}
    (h : checkRange p k a n = some (c, bad)) :
    ∃ j, j < n ∧ bad = a + j ∧ checkByte p k bad = some c ∧ ∀ i, i < j → checkByte p k (a + i) = none := by
  induction n generalizing a with
  | zero => simp [checkRange] at h
  | succ n ih =>
    unfold checkRange at h
    split at h
    · rename_i d hd
      simp only [Option.some.injEq, Prod.mk.injEq] at h
      obtain ⟨rfl, rfl⟩ := h
      exact ⟨0, by omega, rfl, hd, fun i hi => absurd hi (by omega)⟩
    · rename_i hd
      obtain ⟨j, hj, rfl, hc, hi⟩ := ih h
      refine ⟨j + 1, by omega, by omega, hc, fun i hij => ?_⟩
      cases i with
      | zero => exact hd
      | succ i => simpa [Nat.add_assoc, Nat.add_comm 1 i] using hi i (by omega)

/-- A range whose first failing byte is known fails there. -/
theorem checkRange_first {p : Params} {k : Access} {a n j : Nat} {c : FaultCause} (hj : j < n)
    (hbad : checkByte p k (a + j) = some c) (hok : ∀ i, i < j → checkByte p k (a + i) = none) :
    checkRange p k a n = some (c, a + j) := by
  cases h : checkRange p k a n with
  | none => exact absurd ((checkRange_eq_none p k a n).1 h j hj) (by simp [hbad])
  | some r =>
    obtain ⟨d, bad⟩ := r
    obtain ⟨i, hi, rfl, hc, hpre⟩ := checkRange_eq_some h
    rcases Nat.lt_trichotomy i j with hij | rfl | hij
    · simp [hok i hij] at hc
    · simp_all
    · simp [hpre j hij] at hbad

theorem checkByte_read (p : Params) (a : Nat) :
    checkByte p .read a = if memSize ≤ a then some .memOutOfBounds else none := by
  simp [checkByte]

/-- Reading passes exactly inside memory. -/
theorem checkRange_read_none (p : Params) (a n : Nat) :
    checkRange p .read a n = none ↔ n = 0 ∨ a + n ≤ memSize := by
  simp only [checkRange_eq_none, checkByte_read, ite_eq_right_iff, reduceCtorEq, imp_false, Nat.not_le]
  constructor
  · intro h
    rcases Nat.eq_zero_or_pos n with h0 | h0
    · exact .inl h0
    · exact .inr (by have := h (n - 1) (by omega); omega)
  · intro h j hj
    omega

/-- Reading past memory fails at the first address outside it (20_memory R52). -/
theorem checkRange_read_some (p : Params) {a n : Nat} (hn : 0 < n) (h : memSize < a + n) :
    checkRange p .read a n = some (.memOutOfBounds, max a memSize) := by
  rcases Nat.le_total memSize a with ha | ha
  · rw [Nat.max_eq_left ha]
    simpa using checkRange_first (a := a) (n := n) (j := 0) hn
      (by simp [checkByte_read, ha]) (fun i hi => absurd hi (by omega))
  · have hj : a + (memSize - a) = memSize := by omega
    have := checkRange_first (p := p) (k := .read) (a := a) (n := n) (j := memSize - a) (c := .memOutOfBounds) (by omega)
      (by simp [checkByte_read, hj]) (fun i hi => by rw [checkByte_read, if_neg (by omega)])
    rwa [Nat.max_eq_right ha, ← hj]

theorem checkByte_write (p : Params) (a : Nat) :
    checkByte p .write a =
      if memSize ≤ a then some .memOutOfBounds
      else if p.protectLow = .fault ∧ a < programBase then some .writeProtected else none := by
  simp [checkByte]

/-- Writing passes exactly inside memory and, where low memory is protected, from the program base up. -/
theorem checkRange_write_none (p : Params) (a n : Nat) (hn : 0 < n) :
    checkRange p .write a n = none ↔ a + n ≤ memSize ∧ (p.protectLow = .fault → programBase ≤ a) := by
  rw [checkRange_eq_none]
  simp only [checkByte_write]
  constructor
  · intro h
    have h0 := h 0 hn
    have h1 := h (n - 1) (by omega)
    constructor
    · by_contra hc
      rw [if_pos (by omega)] at h1
      cases h1
    · intro hp
      by_contra hc
      split at h0
      · cases h0
      · rw [if_pos ⟨hp, by omega⟩] at h0
        cases h0
  · rintro ⟨h1, h2⟩ j hj
    rw [if_neg (by omega), if_neg]
    rintro ⟨hp, hlt⟩
    have := h2 hp
    omega

/-- A protected write below the program base fails at its first byte (20_memory R53). -/
theorem checkRange_write_protected {p : Params} {a n : Nat} (hn : 0 < n) (hp : p.protectLow = .fault) (ha : a < programBase) :
    checkRange p .write a n = some (.writeProtected, a) := by
  have hs : ¬ memSize ≤ a := by simp only [programBase, memSize] at *; omega
  simpa using checkRange_first (a := a) (n := n) (j := 0) (c := .writeProtected) hn
    (by rw [checkByte_write]; simp [hs, hp, ha]) (fun i hi => absurd hi (by omega))

/-- Any other write past memory fails at the first address outside it (20_memory R52). -/
theorem checkRange_write_outside {p : Params} {a n : Nat} (hn : 0 < n) (hp : p.protectLow = .fault → programBase ≤ a)
    (h : memSize < a + n) : checkRange p .write a n = some (.memOutOfBounds, max a memSize) := by
  rcases Nat.le_total memSize a with ha | ha
  · rw [Nat.max_eq_left ha]
    simpa using checkRange_first (a := a) (n := n) (j := 0) hn
      (by simp [checkByte_write, ha]) (fun i hi => absurd hi (by omega))
  · have hj : a + (memSize - a) = memSize := by omega
    have := checkRange_first (p := p) (k := .write) (a := a) (n := n) (j := memSize - a) (c := .memOutOfBounds) (by omega)
      (by simp [checkByte_write, hj])
      (fun i hi => by
        rw [checkByte_write, if_neg (by omega), if_neg]
        rintro ⟨h1, h2⟩
        have := hp h1
        omega)
    rwa [Nat.max_eq_right ha, ← hj]

/-- An access answers a next state: its effect where the range passes, the fault of the first failing byte elsewhere. -/
theorem guardRange_cases {i : Instr} {k : Access} {a n : Nat} {s t u : State} (h : guardRange i k a n s t = .next u) :
    (checkRange s.params k a n = none ∧ u = t) ∨
      ∃ c bad, checkRange s.params k a n = some (c, bad) ∧ u = s.raise c (some (encode i)) (some bad) none := by
  unfold guardRange at h
  split at h
  · rename_i c bad hc
    exact .inr ⟨c, bad, hc, by simpa [faultIn] using h.symm⟩
  · exact .inl ⟨‹_›, by simpa using h.symm⟩

theorem guardRange_pass {i : Instr} {k : Access} {a n : Nat} {s t : State} (h : checkRange s.params k a n = none) :
    guardRange i k a n s t = .next t := by simp [guardRange, h]

theorem guardRange_fail {i : Instr} {k : Access} {a n bad : Nat} {s t : State} {c : FaultCause}
    (h : checkRange s.params k a n = some (c, bad)) :
    guardRange i k a n s t = .next (s.raise c (some (encode i)) (some bad) none) := by simp [guardRange, h, faultIn]

/-! ### Fetch (20_memory R51) -/

/-- A fetch inside memory gives the two bytes at pc, the first one high. -/
theorem State.fetch_inside {s : State} (h : s.pc.toNat + 1 < memSize) :
    s.fetch = .word (wordOfBytes (s.readByte s.pc.toNat) (s.readByte (s.pc.toNat + 1))) := by
  have : checkRange s.params .read s.pc.toNat 2 = none := (checkRange_read_none _ _ _).2 (.inr (by omega))
  simp [State.fetch, this]

/-- A fetch that leaves memory reports the first address outside it. -/
theorem State.fetch_outside {s : State} (h : memSize ≤ s.pc.toNat + 1) :
    s.fetch = .outOfBounds (max s.pc.toNat memSize) := by
  have := checkRange_read_some s.params (a := s.pc.toNat) (n := 2) (by omega) (by omega)
  simp [State.fetch, this]

/-- What a step can do (70_reset_and_hazards R263): nothing in Faulted, a wait check in AwaitingKey, else a fetch fault, a decode fault
or the decoded instruction. -/
theorem step_cases {s : State} {r : Result} (h : step s = r) :
    (∃ f, s.mode = .faulted f ∧ r = .next s) ∨
    (∃ x, s.mode = .awaitingKey x ∧ r = waitCheck x s) ∨
    (s.mode = .running ∧ memSize ≤ s.pc.toNat + 1 ∧ r = fetchFault s (max s.pc.toNat memSize)) ∨
    (∃ w, s.mode = .running ∧ s.pc.toNat + 1 < memSize ∧ s.fetch = .word w ∧
      ((∃ why, decode w = .illegal why ∧ r = decodeFault s w) ∨ ∃ i, decode w = .instr i ∧ r = exec i s)) := by
  subst h
  unfold step
  split
  · exact .inl ⟨_, ‹_›, rfl⟩
  · exact .inr (.inl ⟨_, ‹_›, rfl⟩)
  · rcases Nat.lt_or_ge (s.pc.toNat + 1) memSize with hp | hp
    · refine .inr (.inr (.inr ⟨_, ‹_›, hp, State.fetch_inside hp, ?_⟩))
      rw [State.fetch_inside hp]
      simp only [runWord]
      split
      · exact .inr ⟨_, ‹_›, rfl⟩
      · exact .inl ⟨_, ‹_›, rfl⟩
    · refine .inr (.inr (.inl ⟨‹_›, hp, ?_⟩))
      rw [State.fetch_outside hp]

/-! ### Operand forms -/

theorem inSixteen_small (q : RangePolicy) {v : Byte} (h : v.toNat < 16) : inSixteen q v = some ⟨v.toNat, h⟩ := by
  simp [inSixteen, h]

theorem inSixteen_fault {v : Byte} (h : 16 ≤ v.toNat) : inSixteen .fault v = none := by
  simp [inSixteen, Nat.not_lt.2 h]

/-- Under the mask policy the low nibble names the thing. -/
theorem inSixteen_mask (v : Byte) : inSixteen .mask v = some ⟨v.toNat % 16, Nat.mod_lt _ (by decide)⟩ := by
  unfold inSixteen
  split
  · rename_i h
    simp [Nat.mod_eq_of_lt h]
  · rfl

@[simp] theorem State.length_regsUpTo (s : State) (x : Reg) : (s.regsUpTo x).length = x.val + 1 := by
  simp [State.regsUpTo]

theorem State.getElem_regsUpTo (s : State) (x : Reg) (k : Nat) (h : k < (s.regsUpTo x).length) :
    (s.regsUpTo x)[k] = s.getV ⟨k, by simp at h; omega⟩ := by
  simp [State.regsUpTo, State.getV]

@[simp] theorem length_bcdDigits (v : Byte) : (bcdDigits v).length = 3 := rfl

/-! ### The wait (44_keypad_timers R207) -/

theorem State.mem_waitKeys (s : State) (k : Key) : k ∈ s.waitKeys ↔ s.keyEndsWait k = true := by
  simp [State.waitKeys]

/-- The choice is a member of P. -/
theorem chooseKey_mem (k : Key) (ks : List Key) (n : Nat) : chooseKey k ks n ∈ k :: ks := by
  unfold chooseKey
  exact List.getElem_mem _

/-- A set of one key leaves no choice. -/
@[simp] theorem chooseKey_single (k : Key) (n : Nat) : chooseKey k [] n = k := by simp [chooseKey]

/-- A wait check answers a next state: unchanged but for the latched keys where no key ends the wait, else the end of the wait with
some key that ends it. -/
theorem waitCheck_cases (x : Reg) (s : State) :
    ((∀ k, s.keyEndsWait k = false) ∧ waitCheck x s = .next s.latchKeys) ∨
      ∃ k, s.keyEndsWait k = true ∧ waitCheck x s = .next (s.latchKeys.endWait x k) := by
  unfold waitCheck
  split
  · rename_i h
    refine .inl ⟨fun k => ?_, rfl⟩
    have := (State.mem_waitKeys s k).not.1 (by simp [h])
    simpa using this
  · rename_i k ks h
    refine .inr ⟨_, ?_, rfl⟩
    exact (State.mem_waitKeys s _).1 (by rw [h]; exact chooseKey_mem k ks _)

end Sys2Proof.Machine
end

