-- ==== Sys2Proof/Laws/Display.lean ====
section
/-! SUPPORT. What drawing a sprite does to a pixel and to the collision (43_display R182), in one lemma each. -/

namespace Sys2Proof.Machine

theorem pixelAt_flipPixel (d : Display) (r r' : Fin 32) (c c' : Fin 64) :
    pixelAt (flipPixel d r c) r' c' = (pixelAt d r' c' ^^ (decide (r' = r) && decide (c' = c))) := by
  unfold flipPixel pixelAt
  by_cases hr : r' = r
  · subst hr
    by_cases hc : c' = c
    · subst hc
      simp
    · have : ¬ c.val = c'.val := fun e => hc (Fin.ext e.symm)
      simp [this, hc]
  · have : ¬ r.val = r'.val := fun e => hr (Fin.ext e.symm)
    simp [this, hr]

@[simp] theorem pixelAt_blank (r : Fin 32) (c : Fin 64) : pixelAt blankDisplay r c = false := by
  simp [pixelAt, blankDisplay]

theorem pixelAt_blitBit (x0 row : Nat) (b : Byte) (z : Blit) (c : Nat) (r : Fin 32) (k : Fin 64) :
    pixelAt (blitBit x0 row b z c).disp r k =
      (pixelAt z.disp r k ^^ (decide (r = wrapRow row) && (b.getLsbD (7 - c) && decide (k = wrapCol (x0 + c))))) := by
  unfold blitBit
  split
  · rename_i h
    simp [pixelAt_flipPixel, h]
  · rename_i h
    simp [h]

theorem collided_blitBit (x0 row : Nat) (b : Byte) (z : Blit) (c : Nat) :
    (blitBit x0 row b z c).collided =
      (z.collided || (b.getLsbD (7 - c) && pixelAt z.disp (wrapRow row) (wrapCol (x0 + c)))) := by
  unfold blitBit
  split
  · rename_i h
    simp [h]
  · rename_i h
    simp [h]

/-- Two columns of one sprite row fall on different display columns: 8 is at most 64 (R180). -/
theorem wrapCol_inj {x0 c d : Nat} (hc : c < 8) (hd : d < 8) (h : wrapCol (x0 + c) = wrapCol (x0 + d)) : c = d := by
  have : (x0 + c) % 64 = (x0 + d) % 64 := congrArg Fin.val h
  omega

theorem pixelAt_blitBits (x0 row : Nat) (b : Byte) (cs : List Nat) (hn : cs.Nodup) (h8 : ∀ c ∈ cs, c < 8) (z : Blit)
    (r : Fin 32) (k : Fin 64) :
    pixelAt (cs.foldl (blitBit x0 row b) z).disp r k =
      (pixelAt z.disp r k ^^
        (decide (r = wrapRow row) && cs.any fun c => b.getLsbD (7 - c) && decide (k = wrapCol (x0 + c)))) := by
  induction cs generalizing z with
  | nil => simp
  | cons c cs ih =>
    rw [List.nodup_cons] at hn
    rw [List.foldl_cons, ih hn.2 (fun d hd => h8 d (List.mem_cons_of_mem _ hd)), pixelAt_blitBit, List.any_cons]
    by_cases hk : k = wrapCol (x0 + c)
    · have hrest : (cs.any fun d => b.getLsbD (7 - d) && decide (k = wrapCol (x0 + d))) = false := by
        rw [List.any_eq_false]
        intro d hd hh
        simp only [Bool.and_eq_true, decide_eq_true_eq] at hh
        have : c = d := wrapCol_inj (h8 c (by simp)) (h8 d (List.mem_cons_of_mem _ hd)) (hk ▸ hh.2)
        exact hn.1 (this ▸ hd)
      simp [hrest]
    · simp [hk]

theorem collided_blitBits (x0 row : Nat) (b : Byte) (cs : List Nat) (hn : cs.Nodup) (h8 : ∀ c ∈ cs, c < 8) (z : Blit) :
    (cs.foldl (blitBit x0 row b) z).collided =
      (z.collided || cs.any fun c => b.getLsbD (7 - c) && pixelAt z.disp (wrapRow row) (wrapCol (x0 + c))) := by
  induction cs generalizing z with
  | nil => simp
  | cons c cs ih =>
    rw [List.nodup_cons] at hn
    have h8' : ∀ d ∈ cs, d < 8 := fun d hd => h8 d (List.mem_cons_of_mem _ hd)
    have hrest : ∀ d ∈ cs, pixelAt (blitBit x0 row b z c).disp (wrapRow row) (wrapCol (x0 + d)) =
        pixelAt z.disp (wrapRow row) (wrapCol (x0 + d)) := by
      intro d hd
      have : ¬ wrapCol (x0 + d) = wrapCol (x0 + c) := fun e =>
        hn.1 (wrapCol_inj (h8' d hd) (h8 c (by simp)) e ▸ hd)
      simp [pixelAt_blitBit, this]
    have hany : (cs.any fun d => b.getLsbD (7 - d) && pixelAt (blitBit x0 row b z c).disp (wrapRow row) (wrapCol (x0 + d))) =
        cs.any fun d => b.getLsbD (7 - d) && pixelAt z.disp (wrapRow row) (wrapCol (x0 + d)) := by
      rw [Bool.eq_iff_iff]
      simp only [List.any_eq_true]
      constructor <;> rintro ⟨d, hd, h⟩ <;> exact ⟨d, hd, by simpa [hrest d hd] using h⟩
    rw [List.foldl_cons, ih hn.2 h8', collided_blitBit, hany, List.any_cons, Bool.or_assoc]

/-- The bits of one sprite byte that fall on a display column. -/
def rowCovers (x0 : Nat) (b : Byte) (k : Fin 64) : Bool :=
  (List.range 8).any fun c => b.getLsbD (7 - c) && decide (k = wrapCol (x0 + c))

/-- The sprite bytes of which a set bit falls on a pixel. -/
def spriteCovers (x0 : Nat) : Nat → List Byte → Fin 32 → Fin 64 → Bool
  | _, [], _, _ => false
  | y0, b :: bs, r, k => (decide (r = wrapRow y0) && rowCovers x0 b k) || spriteCovers x0 (y0 + 1) bs r k

theorem pixelAt_blitRow (x0 row : Nat) (b : Byte) (z : Blit) (r : Fin 32) (k : Fin 64) :
    pixelAt (blitRow x0 row b z).disp r k = (pixelAt z.disp r k ^^ (decide (r = wrapRow row) && rowCovers x0 b k)) :=
  pixelAt_blitBits x0 row b _ List.nodup_range (fun _ hc => List.mem_range.1 hc) z r k

theorem spriteCovers_iff (x0 y0 : Nat) (bs : List Byte) (r : Fin 32) (k : Fin 64) :
    spriteCovers x0 y0 bs r k = true ↔
      ∃ i c : Nat, ∃ h : i < bs.length, c < 8 ∧ r = wrapRow (y0 + i) ∧ k = wrapCol (x0 + c) ∧ bs[i].getLsbD (7 - c) = true := by
  induction bs generalizing y0 with
  | nil => simp [spriteCovers]
  | cons b bs ih =>
    simp only [spriteCovers, Bool.or_eq_true, Bool.and_eq_true, decide_eq_true_eq, ih, rowCovers, List.any_eq_true,
      List.mem_range]
    constructor
    · rintro (⟨hr, c, hc, hb, hk⟩ | ⟨i, c, hi, hc, hr, hk, hb⟩)
      · exact ⟨0, c, by simp, hc, by simpa using hr, hk, by simpa using hb⟩
      · exact ⟨i + 1, c, by simpa using hi, hc, by rw [hr]; congr 1; omega, hk, by simpa using hb⟩
    · rintro ⟨i, c, hi, hc, hr, hk, hb⟩
      cases i with
      | zero => exact .inl ⟨by simpa using hr, c, hc, by simpa using hb, hk⟩
      | succ i =>
        exact .inr ⟨i, c, by simpa using hi, hc, by rw [hr]; congr 1; omega, hk, by simpa using hb⟩

/-- Rows below the first of a sprite of at most 32 rows are other display rows (R180). -/
theorem spriteCovers_below {x0 y0 : Nat} {bs : List Byte} (h : bs.length < 32) (k : Fin 64) :
    spriteCovers x0 (y0 + 1) bs (wrapRow y0) k = false := by
  rw [← Bool.not_eq_true, spriteCovers_iff]
  rintro ⟨i, c, hi, -, hr, -⟩
  have : y0 % 32 = (y0 + 1 + i) % 32 := congrArg Fin.val hr
  omega

/-- A pixel after a sprite is drawn: flipped exactly where a set bit falls on it. -/
theorem pixelAt_blitSprite (x0 y0 : Nat) (bs : List Byte) (h : bs.length ≤ 32) (z : Blit) (r : Fin 32) (k : Fin 64) :
    pixelAt (blitSprite x0 y0 bs z).disp r k = (pixelAt z.disp r k ^^ spriteCovers x0 y0 bs r k) := by
  induction bs generalizing y0 z with
  | nil => simp [blitSprite, spriteCovers]
  | cons b bs ih =>
    rw [List.length_cons] at h
    rw [blitSprite, ih _ (by omega), pixelAt_blitRow, spriteCovers]
    by_cases hr : r = wrapRow y0
    · subst hr
      simp [spriteCovers_below (x0 := x0) (y0 := y0) (bs := bs) (by omega) k]
    · simp [hr]

/-- The collision after a sprite is drawn: some set bit fell on a pixel that was on. -/
theorem collided_blitSprite (x0 y0 : Nat) (bs : List Byte) (h : bs.length ≤ 32) (z : Blit) :
    (blitSprite x0 y0 bs z).collided = true ↔
      z.collided = true ∨ ∃ r k, spriteCovers x0 y0 bs r k = true ∧ pixelAt z.disp r k = true := by
  induction bs generalizing y0 z with
  | nil => simp [blitSprite, spriteCovers]
  | cons b bs ih =>
    rw [List.length_cons] at h
    have hrow : (blitRow x0 y0 b z).collided = true ↔
        z.collided = true ∨ ∃ k, rowCovers x0 b k = true ∧ pixelAt z.disp (wrapRow y0) k = true := by
      rw [blitRow, collided_blitBits _ _ _ _ List.nodup_range (fun c hc => List.mem_range.1 hc)]
      simp only [Bool.or_eq_true, List.any_eq_true, Bool.and_eq_true, rowCovers, decide_eq_true_eq]
      constructor
      · rintro (hz | ⟨c, hc, hb, hp⟩)
        · exact .inl hz
        · exact .inr ⟨_, ⟨c, hc, hb, rfl⟩, hp⟩
      · rintro (hz | ⟨k, ⟨c, hc, hb, rfl⟩, hp⟩)
        · exact .inl hz
        · exact .inr ⟨c, hc, hb, hp⟩
    rw [blitSprite, ih _ (by omega), hrow, or_assoc]
    refine or_congr_right ?_
    constructor
    · rintro (⟨k, hk, hp⟩ | ⟨r, k, hk, hp⟩)
      · exact ⟨wrapRow y0, k, by simp [spriteCovers, hk], hp⟩
      · rw [pixelAt_blitRow] at hp
        have hr : r ≠ wrapRow y0 := by
          rintro rfl
          simp [spriteCovers_below (x0 := x0) (y0 := y0) (bs := bs) (by omega) k] at hk
        exact ⟨r, k, by simp [spriteCovers, hk], by simpa [hr] using hp⟩
    · rintro ⟨r, k, hk, hp⟩
      simp only [spriteCovers, Bool.or_eq_true, Bool.and_eq_true, decide_eq_true_eq] at hk
      rcases hk with ⟨rfl, hk⟩ | hk
      · exact .inl ⟨k, hk, hp⟩
      · have hr : r ≠ wrapRow y0 := by
          rintro rfl
          simp [spriteCovers_below (x0 := x0) (y0 := y0) (bs := bs) (by omega) k] at hk
        exact .inr ⟨r, k, hk, by rw [pixelAt_blitRow]; simpa [hr] using hp⟩

end Sys2Proof.Machine
end

