-- ==== Sys2Proof/Laws/Frame.lean ====
section
/-! SUPPORT. What a run of the host's moves can do (70_reset_and_hazards R262), and that the frame loop is one (R264). -/

namespace Sys2Proof.Machine

/-- A move that succeeds hands its state on. -/
theorem hostOps_cons_next {op : HostOp} {s t : State} (h : hostOp op s = .next t) (ops : List HostOp) :
    hostOps (op :: ops) s = hostOps ops t := by simp [hostOps, h]

/-- A `set_key` that fails changes nothing, and the run goes on (60_exceptions R244). -/
theorem hostOps_setKey_fails {k : Nat} (h : 16 ≤ k) (b : Bool) (ops : List HostOp) (s : State) :
    hostOps (.setKey k b :: ops) s = hostOps ops s := by
  simp [hostOps, hostOp, setKey, Nat.not_lt.2 h, HostOp.mayFail]

/-- A ROM that is too large changes nothing, and the run goes on (70_reset_and_hazards R266). -/
theorem hostOps_loadRom_fails {bytes : List Byte} (h : maxRom < bytes.length) (ops : List HostOp) (s : State) :
    hostOps (.loadRom bytes :: ops) s = hostOps ops s := by
  simp [hostOps, hostOp, loadRom, Nat.not_le.2 h, HostOp.mayFail]

/-- Key updates as moves of the host. -/
def keyOps (us : KeyUpdates) : List HostOp := us.map fun u => .setKey u.1.val u.2

/-- Key updates change the keypad and nothing else. -/
theorem State.withKeys_eq (us : KeyUpdates) : ∀ s : State, s.withKeys us = { s with keys := (s.withKeys us).keys } := by
  induction us with
  | nil => exact fun _ => rfl
  | cons u us ih =>
    intro s
    rw [State.withKeys, ih]
    rfl

theorem hostOps_append (ops ops' : List HostOp) : ∀ {s t : State}, hostOps ops s = .next t →
    hostOps (ops ++ ops') s = hostOps ops' t := by
  induction ops with
  | nil => intro s t h; cases h; rfl
  | cons op ops ih =>
    intro s t h
    simp only [hostOps, List.cons_append] at h ⊢
    split at h
    · exact ih h
    · cases h
    · split at h
      · rw [if_pos ‹_›]
        exact ih h
      · cases h

theorem hostOps_keyOps (us : KeyUpdates) : ∀ s : State, hostOps (keyOps us) s = .next (s.withKeys us) := by
  induction us with
  | nil => exact fun _ => rfl
  | cons u us ih =>
    intro s
    have h : hostOp (.setKey u.1.val u.2) s = .next (s.withKey u.1 u.2) := by simp [hostOp, setKey]
    exact (hostOps_cons_next h _).trans (ih _)

@[simp] theorem count_step_keyOps (us : KeyUpdates) : (keyOps us).count .step = 0 := by
  simp [keyOps, List.count_eq_zero]

@[simp] theorem filter_keyOps (us : KeyUpdates) : (keyOps us).filter (· ≠ .step) = keyOps us := by
  refine List.filter_eq_self.2 fun op h => ?_
  obtain ⟨u, -, rfl⟩ := List.mem_map.1 h
  rfl

theorem keyOps_append (us vs : KeyUpdates) : keyOps (us ++ vs) = keyOps us ++ keyOps vs := List.map_append

theorem flatten_headD_tail (us : List KeyUpdates) : us.flatten = us.headD [] ++ us.tail.flatten := by cases us <;> rfl

/-- The steps of a frame are moves of the host: at most `ipf` steps, and between them every key update once, in order. -/
theorem frameSteps_moves (ipf : Nat) : ∀ (us : List KeyUpdates) (s : State), ∃ ops,
    frameSteps ipf us s = hostOps ops s ∧ ops.count .step ≤ ipf ∧ ops.filter (· ≠ .step) = keyOps us.flatten := by
  induction ipf with
  | zero => exact fun us s => ⟨keyOps us.flatten, (hostOps_keyOps ..).symm, by simp, filter_keyOps _⟩
  | succ k ih =>
    intro us s
    cases hf : s.faultRecord with
    | some f => exact ⟨keyOps us.flatten, by simp [frameSteps, hf, hostOps_keyOps], by simp, filter_keyOps _⟩
    | none =>
      have key : ∀ rest : List HostOp, rest.count .step ≤ k → rest.filter (· ≠ .step) = keyOps us.tail.flatten →
          frameSteps (k + 1) us s = hostOps (.step :: rest) (s.withKeys (us.headD [])) → ∃ ops,
          frameSteps (k + 1) us s = hostOps ops s ∧ ops.count .step ≤ k + 1 ∧ ops.filter (· ≠ .step) = keyOps us.flatten := by
        intro rest hc hr h
        refine ⟨keyOps (us.headD []) ++ .step :: rest, ?_, by simpa using hc, ?_⟩
        · rw [h, hostOps_append _ _ (hostOps_keyOps ..)]
        · rw [flatten_headD_tail, keyOps_append, ← hr, List.filter_append, filter_keyOps]
          rfl
      have stop := key (keyOps us.tail.flatten) (by simp) (filter_keyOps _)
      cases hs : step (s.withKeys (us.headD [])) with
      | fault r => exact stop (by simp only [frameSteps, hf, frameStepThen, hostOps, hostOp, hs])
      | refused r => exact stop (by simp only [frameSteps, hf, frameStepThen, hostOps, hostOp, hs, HostOp.mayFail, Bool.false_eq_true, if_false])
      | next t =>
        cases hm : t.mode with
        | awaitingKey x => exact stop (by simp only [frameSteps, hf, frameStepThen, hostOps, hostOp, hs, hm, hostOps_keyOps])
        | running =>
          obtain ⟨rest, h, hc, hr⟩ := ih us.tail t
          exact key rest hc hr (by simp only [frameSteps, hf, frameStepThen, hostOps, hostOp, hs, hm, h])
        | faulted f =>
          obtain ⟨rest, h, hc, hr⟩ := ih us.tail t
          exact key rest hc hr (by simp only [frameSteps, hf, frameStepThen, hostOps, hostOp, hs, hm, h])

/-- A frame is moves of the host: the steps and key updates, then one tick. -/
theorem frame_moves (ipf : Nat) (us : List KeyUpdates) (s : State) : ∃ ops,
    frame ipf us s = hostOps (ops ++ [.tick]) s ∧ ops.count .step ≤ ipf ∧ ops.filter (· ≠ .step) = keyOps us.flatten := by
  obtain ⟨ops, h, hc, hk⟩ := frameSteps_moves ipf us s
  refine ⟨ops, ?_, hc, hk⟩
  have stuck : ∀ (ops : List HostOp) (s : State), (∀ t, hostOps ops s ≠ .next t) → hostOps (ops ++ [.tick]) s = hostOps ops s := by
    intro ops
    induction ops with
    | nil => exact fun s h => absurd rfl (h s)
    | cons op ops ih =>
      intro s h
      simp only [hostOps, List.cons_append] at h ⊢
      cases ho : hostOp op s with
      | next u => simp only [ho] at h ⊢; exact ih u h
      | fault r => rfl
      | refused r =>
        simp only [ho] at h ⊢
        split
        · exact ih s (by simpa [*] using h)
        · rfl
  cases hr : hostOps ops s with
  | next t => rw [hostOps_append _ _ hr]; simp [frame, h, hr, hostOps, hostOp]
  | fault r => rw [stuck _ _ (by simp [hr])]; simp [frame, h, hr]
  | refused r => rw [stuck _ _ (by simp [hr])]; simp [frame, h, hr]

end Sys2Proof.Machine
end

