-- ==== Sys2Proof/Laws/PerInstr.lean ====
section
/-! SUPPORT. Statements about every instruction as syntax, one lemma a constructor. -/

namespace Sys2Proof.Laws

theorem getLsbD_append16 (x : BitVec 4) (y : BitVec 12) (i : Nat) :
    (x ++ y : BitVec 16).getLsbD i = if i < 12 then y.getLsbD i else x.getLsbD (i - 12) := BitVec.getLsbD_append

/-- The bits under the family mask. -/
theorem and_familyMask (w : Word) : w &&& 0xF000 = (fieldF w ++ 0#12 : BitVec 16) := by
  apply BitVec.eq_of_getLsbD_eq
  intro i hi
  rw [BitVec.getLsbD_and, getLsbD_append16]
  interval_cases i <;> simp [fieldF]

/-- The bits under the mask of a sub-opcode nibble. -/
theorem and_subNibbleMask (w : Word) : w &&& 0xF00F = (fieldF w ++ (fieldN w).setWidth 12 : BitVec 16) := by
  apply BitVec.eq_of_getLsbD_eq
  intro i hi
  rw [BitVec.getLsbD_and, getLsbD_append16]
  interval_cases i <;> simp [fieldF, fieldN]

/-- The bits under the mask of a sub-opcode byte. -/
theorem and_subByteMask (w : Word) : w &&& 0xF0FF = (fieldF w ++ (fieldNN w).setWidth 12 : BitVec 16) := by
  apply BitVec.eq_of_getLsbD_eq
  intro i hi
  rw [BitVec.getLsbD_and, getLsbD_append16]
  interval_cases i <;> simp [fieldF, fieldNN]

/-- The word of an instruction has the bits its row of 30_encoding R80 fixes. -/
def TableRow.Statement (i : Instr) : Prop := encode i &&& rowMask i = rowMatch i

theorem TableRow.cls : TableRow.Statement .cls := rfl
theorem TableRow.ret : TableRow.Statement .ret := rfl
theorem TableRow.sys (nnn : Addr12) : TableRow.Statement (.sys nnn) := by
  simp only [TableRow.Statement, encode, rowMask, rowMatch, and_familyMask]
  simp
theorem TableRow.jp (nnn : Addr12) : TableRow.Statement (.jp nnn) := by
  simp only [TableRow.Statement, encode, rowMask, rowMatch, and_familyMask]
  simp
theorem TableRow.call (nnn : Addr12) : TableRow.Statement (.call nnn) := by
  simp only [TableRow.Statement, encode, rowMask, rowMatch, and_familyMask]
  simp
theorem TableRow.seImm (x : Reg) (nn : Byte) : TableRow.Statement (.seImm x nn) := by
  simp only [TableRow.Statement, encode, rowMask, rowMatch, and_familyMask]
  simp
theorem TableRow.sneImm (x : Reg) (nn : Byte) : TableRow.Statement (.sneImm x nn) := by
  simp only [TableRow.Statement, encode, rowMask, rowMatch, and_familyMask]
  simp
theorem TableRow.seReg (x y : Reg) : TableRow.Statement (.seReg x y) := by
  simp only [TableRow.Statement, encode, rowMask, rowMatch, and_subNibbleMask]
  simp
theorem TableRow.ldImm (x : Reg) (nn : Byte) : TableRow.Statement (.ldImm x nn) := by
  simp only [TableRow.Statement, encode, rowMask, rowMatch, and_familyMask]
  simp
theorem TableRow.addImm (x : Reg) (nn : Byte) : TableRow.Statement (.addImm x nn) := by
  simp only [TableRow.Statement, encode, rowMask, rowMatch, and_familyMask]
  simp
theorem TableRow.ldReg (x y : Reg) : TableRow.Statement (.ldReg x y) := by
  simp only [TableRow.Statement, encode, rowMask, rowMatch, and_subNibbleMask]
  simp
theorem TableRow.orReg (x y : Reg) : TableRow.Statement (.orReg x y) := by
  simp only [TableRow.Statement, encode, rowMask, rowMatch, and_subNibbleMask]
  simp
theorem TableRow.andReg (x y : Reg) : TableRow.Statement (.andReg x y) := by
  simp only [TableRow.Statement, encode, rowMask, rowMatch, and_subNibbleMask]
  simp
theorem TableRow.xorReg (x y : Reg) : TableRow.Statement (.xorReg x y) := by
  simp only [TableRow.Statement, encode, rowMask, rowMatch, and_subNibbleMask]
  simp
theorem TableRow.addReg (x y : Reg) : TableRow.Statement (.addReg x y) := by
  simp only [TableRow.Statement, encode, rowMask, rowMatch, and_subNibbleMask]
  simp
theorem TableRow.subReg (x y : Reg) : TableRow.Statement (.subReg x y) := by
  simp only [TableRow.Statement, encode, rowMask, rowMatch, and_subNibbleMask]
  simp
theorem TableRow.shr (x y : Reg) : TableRow.Statement (.shr x y) := by
  simp only [TableRow.Statement, encode, rowMask, rowMatch, and_subNibbleMask]
  simp
theorem TableRow.subn (x y : Reg) : TableRow.Statement (.subn x y) := by
  simp only [TableRow.Statement, encode, rowMask, rowMatch, and_subNibbleMask]
  simp
theorem TableRow.shl (x y : Reg) : TableRow.Statement (.shl x y) := by
  simp only [TableRow.Statement, encode, rowMask, rowMatch, and_subNibbleMask]
  simp
theorem TableRow.sneReg (x y : Reg) : TableRow.Statement (.sneReg x y) := by
  simp only [TableRow.Statement, encode, rowMask, rowMatch, and_subNibbleMask]
  simp
theorem TableRow.ldI (nnn : Addr12) : TableRow.Statement (.ldI nnn) := by
  simp only [TableRow.Statement, encode, rowMask, rowMatch, and_familyMask]
  simp
theorem TableRow.jpV0 (nnn : Addr12) : TableRow.Statement (.jpV0 nnn) := by
  simp only [TableRow.Statement, encode, rowMask, rowMatch, and_familyMask]
  simp
theorem TableRow.rnd (x : Reg) (nn : Byte) : TableRow.Statement (.rnd x nn) := by
  simp only [TableRow.Statement, encode, rowMask, rowMatch, and_familyMask]
  simp
theorem TableRow.drw (x y : Reg) (n : Nibble) : TableRow.Statement (.drw x y n) := by
  simp only [TableRow.Statement, encode, rowMask, rowMatch, and_familyMask]
  simp
theorem TableRow.skp (x : Reg) : TableRow.Statement (.skp x) := by
  simp only [TableRow.Statement, encode, rowMask, rowMatch, and_subByteMask]
  simp
theorem TableRow.sknp (x : Reg) : TableRow.Statement (.sknp x) := by
  simp only [TableRow.Statement, encode, rowMask, rowMatch, and_subByteMask]
  simp
theorem TableRow.ldVxDt (x : Reg) : TableRow.Statement (.ldVxDt x) := by
  simp only [TableRow.Statement, encode, rowMask, rowMatch, and_subByteMask]
  simp
theorem TableRow.ldVxK (x : Reg) : TableRow.Statement (.ldVxK x) := by
  simp only [TableRow.Statement, encode, rowMask, rowMatch, and_subByteMask]
  simp
theorem TableRow.ldDtVx (x : Reg) : TableRow.Statement (.ldDtVx x) := by
  simp only [TableRow.Statement, encode, rowMask, rowMatch, and_subByteMask]
  simp
theorem TableRow.ldStVx (x : Reg) : TableRow.Statement (.ldStVx x) := by
  simp only [TableRow.Statement, encode, rowMask, rowMatch, and_subByteMask]
  simp
theorem TableRow.addI (x : Reg) : TableRow.Statement (.addI x) := by
  simp only [TableRow.Statement, encode, rowMask, rowMatch, and_subByteMask]
  simp
theorem TableRow.ldF (x : Reg) : TableRow.Statement (.ldF x) := by
  simp only [TableRow.Statement, encode, rowMask, rowMatch, and_subByteMask]
  simp
theorem TableRow.ldB (x : Reg) : TableRow.Statement (.ldB x) := by
  simp only [TableRow.Statement, encode, rowMask, rowMatch, and_subByteMask]
  simp
theorem TableRow.ldStore (x : Reg) : TableRow.Statement (.ldStore x) := by
  simp only [TableRow.Statement, encode, rowMask, rowMatch, and_subByteMask]
  simp
theorem TableRow.ldLoad (x : Reg) : TableRow.Statement (.ldLoad x) := by
  simp only [TableRow.Statement, encode, rowMask, rowMatch, and_subByteMask]
  simp

end Sys2Proof.Laws
end

