-- ==== Sys2Proof/Laws/Words.lean ====
section
/-! SUPPORT. The words the statements write as numbers are the words the encoder puts together. -/

namespace Sys2Proof.Safety

theorem wordA_eq_packA {f : Nat} (hf : f < 16) (nnn : Addr12) : wordA f nnn = packA (BitVec.ofNat 4 f) nnn := by
  apply BitVec.eq_of_toNat_eq
  simp only [wordA, packA, BitVec.toNat_append, BitVec.toNat_ofNat]
  rw [← Nat.shiftLeft_add_eq_or_of_lt nnn.isLt, Nat.shiftLeft_eq, Nat.mod_eq_of_lt (show f < 2 ^ 4 from hf)]
  have := nnn.isLt
  omega

theorem wordXB_eq_packXB {f : Nat} (hf : f < 16) (x : Reg) (nn : Byte) :
    wordXB f x nn = packXB (BitVec.ofNat 4 f) x nn := by
  apply BitVec.eq_of_toNat_eq
  have h1 := nn.isLt
  have h2 := x.isLt
  have e : (regBits x ++ nn : BitVec 12).toNat = x.val * 256 + nn.toNat := by
    rw [BitVec.toNat_append, ← Nat.shiftLeft_add_eq_or_of_lt nn.isLt, Nat.shiftLeft_eq]
    rfl
  have e2 := (regBits x ++ nn : BitVec 12).isLt
  rw [packXB, BitVec.toNat_append, ← Nat.shiftLeft_add_eq_or_of_lt e2, Nat.shiftLeft_eq, e]
  simp only [wordXB, BitVec.toNat_ofNat]
  rw [Nat.mod_eq_of_lt (show f < 2 ^ 4 from hf)]
  omega

theorem wordXYN_eq_packXYN {f : Nat} (hf : f < 16) (x y : Reg) (n : Nibble) :
    wordXYN f x y n = packXYN (BitVec.ofNat 4 f) x y n := by
  have e : (regBits y ++ n : BitVec 8).toNat = y.val * 16 + n.toNat := by
    rw [BitVec.toNat_append, ← Nat.shiftLeft_add_eq_or_of_lt n.isLt, Nat.shiftLeft_eq]
    rfl
  have h : wordXYN f x y n = wordXB f x (regBits y ++ n) := by
    unfold wordXYN wordXB
    rw [e, ← Nat.add_assoc]
  rw [h, wordXB_eq_packXB hf]
  rfl

end Sys2Proof.Safety
end

