-- ==== Sys2Proof/Tests/Slice0.lean ====
section
/-! SUPPORT. Checks of the model against 95_test_vectors (each test names its vector there), and for each statement with hypotheses a
witness that they can be met. -/

namespace Sys2Proof.Tests

open Sys2Proof.Machine Sys2Proof.Safety

/-! ### Well-formedness -/

theorem test_wf_sys_is_not_cls : (Instr.sys 0x0E0).wellFormed = false := by decide
theorem test_wf_sys_is_not_ret : (Instr.sys 0x0EE).wellFormed = false := by decide
theorem test_wf_sys : (Instr.sys 0x0E1).wellFormed = true ∧ (Instr.sys 0xFFF).wellFormed = true := by decide

/-! ### Decoding: V-DEC and W1, every constructor by a word written out -/

theorem test_decode_family0 :
    decode 0x00E0 = .instr .cls ∧ decode 0x00EE = .instr .ret ∧ decode 0x0000 = .instr (.sys 0x000) ∧
      decode 0x0123 = .instr (.sys 0x123) ∧ decode 0x00E1 = .instr (.sys 0x0E1) := by decide
theorem test_decode_jumps :
    decode 0x1ABC = .instr (.jp 0xABC) ∧ decode 0x2ABC = .instr (.call 0xABC) ∧ decode 0xB123 = .instr (.jpV0 0x123) := by decide
theorem test_decode_skips :
    decode 0x3A42 = .instr (.seImm 0xA 0x42) ∧ decode 0x4A42 = .instr (.sneImm 0xA 0x42) ∧
      decode 0x5AB0 = .instr (.seReg 0xA 0xB) ∧ decode 0x9AB0 = .instr (.sneReg 0xA 0xB) := by decide
theorem test_decode_immediates :
    decode 0x6AFF = .instr (.ldImm 0xA 0xFF) ∧ decode 0x7A01 = .instr (.addImm 0xA 0x01) ∧
      decode 0xA123 = .instr (.ldI 0x123) ∧ decode 0xC1FF = .instr (.rnd 1 0xFF) := by decide
theorem test_decode_family8 :
    decode 0x8AB0 = .instr (.ldReg 0xA 0xB) ∧ decode 0x8AB1 = .instr (.orReg 0xA 0xB) ∧
      decode 0x8AB2 = .instr (.andReg 0xA 0xB) ∧ decode 0x8AB3 = .instr (.xorReg 0xA 0xB) ∧
      decode 0x8AB4 = .instr (.addReg 0xA 0xB) ∧ decode 0x8AB5 = .instr (.subReg 0xA 0xB) ∧
      decode 0x8AB6 = .instr (.shr 0xA 0xB) ∧ decode 0x8AB7 = .instr (.subn 0xA 0xB) ∧
      decode 0x8ABE = .instr (.shl 0xA 0xB) := by decide
theorem test_decode_draw : decode 0xD12F = .instr (.drw 1 2 0xF) ∧ decode 0xD120 = .instr (.drw 1 2 0x0) := by decide
theorem test_decode_familyE : decode 0xE19E = .instr (.skp 1) ∧ decode 0xE1A1 = .instr (.sknp 1) := by decide
theorem test_decode_familyF :
    decode 0xF107 = .instr (.ldVxDt 1) ∧ decode 0xF10A = .instr (.ldVxK 1) ∧ decode 0xF115 = .instr (.ldDtVx 1) ∧
      decode 0xF118 = .instr (.ldStVx 1) ∧ decode 0xF11E = .instr (.addI 1) ∧ decode 0xF129 = .instr (.ldF 1) ∧
      decode 0xF133 = .instr (.ldB 1) ∧ decode 0xF155 = .instr (.ldStore 1) ∧ decode 0xF165 = .instr (.ldLoad 1) := by decide
theorem test_decode_illegal :
    decode 0x5AB1 = .illegal .family5 ∧ decode 0x8AB8 = .illegal .family8 ∧ decode 0x8ABD = .illegal .family8 ∧
      decode 0x8ABF = .illegal .family8 ∧ decode 0x9AB5 = .illegal .family9 ∧ decode 0xE19F = .illegal .familyE ∧
      decode 0xF108 = .illegal .familyF ∧ decode 0xF1FF = .illegal .familyF ∧ decode 0xF100 = .illegal .familyF := by decide
theorem test_decode_bytes :
    decodeBytes [0x12, 0x00] = .instr (.jp 0x200) ∧ decodeBytes [0x60, 0x05, 0xFF] = .instr (.ldImm 0 0x05) ∧
      decodeBytes [0x12] = .illegal .truncated ∧ decodeBytes [] = .illegal .truncated := by decide
theorem test_encode :
    encode (.drw 1 2 0xF) = 0xD12F ∧ encode (.ldF 0) = 0xF029 ∧ encode (.sneImm 0xA 0x42) = 0x4A42 ∧ encode (.jp 0x200) = 0x1200 := by
  decide
theorem test_table_word : decodeTableWord 16 0xF155 = some (.ldStore 1) ∧ decodeTableWord 16 0x8008 = none := by decide

/-! ### Small states -/

/-- Registers with given values. -/
def regs : List (Reg × Byte) → State → State
  | [], s => s
  | (x, b) :: l, s => regs l (s.setV x b)

/-- The reset state with other parameters. -/
def under (f : Params → Params) : State := State.resetWith (f defaultParams)

/-- The state an answer holds, if it is a next state. -/
def after (r : Result) : State :=
  match r with
  | .next t => t
  | .fault _ => State.reset
  | .refused _ => State.reset

/-- One step on a word put at pc. -/
def run (w : Nat) (s : State) : State := after (step (s.withFetchWord 16 w))

/-- Everything a fault leaves: the record, and pc at the instruction. -/
def fault (c : FaultCause) (pc : Word) (op : Option Word) (addr : Option Nat) (v : Option Byte) : Mode :=
  .faulted { cause := c, pc := pc, opcode := op, addr := addr, value := v }

/-! ### Control flow: V-CF -/

/-- CF7. -/
theorem test_ret : let t := run 0x00EE { State.reset with sp := 2, pc := 0x500, stack := State.reset.stack.set 1 0x30A }
    t.sp = 1 ∧ t.pc = 0x30A ∧ t.stack[1] = 0x30A := by decide
/-- CF8. -/
theorem test_ret_underflow : (run 0x00EE State.reset).mode = fault .stackUnderflow 0x200 (some 0x00EE) none none := by decide
/-- CF27. -/
theorem test_sys_fault : (run 0x0123 State.reset).mode = fault .illegalInstruction 0x200 (some 0x0123) none none := by decide
/-- CF28. -/
theorem test_sys_nop : let t := run 0x0123 (under fun p => { p with sysPolicy := .nop })
    t.pc = 0x202 ∧ t.mode = .running := by decide
/-- CF1. -/
theorem test_jp : (run 0x1ABC State.reset).pc = 0xABC := by decide
/-- CF2. -/
theorem test_jp_then_fetch_fault : let t := run 0x1FFF State.reset
    t.pc = 0xFFF ∧ (after (step t)).mode = fault .fetchOutOfBounds 0xFFF none (some 0x1000) none := by decide
/-- CF5. -/
theorem test_call : let t := run 0x2400 { State.reset with sp := 15, pc := 0x300 }
    t.stack[15] = 0x302 ∧ t.sp = 16 ∧ t.pc = 0x400 := by decide
/-- CF6. -/
theorem test_call_overflow : let t := run 0x2400 { State.reset with sp := 16, pc := 0x400 }
    t.mode = fault .stackOverflow 0x400 (some 0x2400) none none ∧ t.sp = 16 ∧ t.pc = 0x400 := by decide
/-- CF11. -/
theorem test_se_imm : (run 0x3F00 State.reset).pc = 0x204 := by decide
/-- CF10. -/
theorem test_se_imm_not : (run 0x3343 (regs [(3, 0x42)] State.reset)).pc = 0x202 := by decide
/-- CF12. -/
theorem test_sne_imm_not : (run 0x4342 (regs [(3, 0x42)] State.reset)).pc = 0x202 := by decide
/-- CF13. -/
theorem test_sne_imm : (run 0x4300 (regs [(3, 0x42)] State.reset)).pc = 0x204 := by decide
/-- CF16. -/
theorem test_se_reg : (run 0x5120 (regs [(1, 7), (2, 7)] State.reset)).pc = 0x204 := by decide
/-- CF20. -/
theorem test_se_reg_illegal : (run 0x5121 State.reset).mode = fault .illegalInstruction 0x200 (some 0x5121) none none := by decide
/-- CF18. -/
theorem test_sne_reg : (run 0x9120 (regs [(1, 7), (2, 8)] State.reset)).pc = 0x204 := by decide
/-- CF19. -/
theorem test_sne_reg_same : (run 0x9550 (regs [(5, 9)] State.reset)).pc = 0x202 := by decide
/-- CF22 and CF23. -/
theorem test_jp_v0 : (run 0xBFFF (regs [(0, 4)] { State.reset with i := 0x300 })).pc = 0x304 ∧
    (run 0xB500 (regs [(0, 4)] { under (fun p => { p with jpV0Base := .nnn }) with i := 0x300 })).pc = 0x504 := by decide
/-- CF24. -/
theorem test_jp_v0_past_pc : (run 0xB000 (regs [(0, 1)] { State.reset with i := 0xFFFF })).mode =
    fault .fetchOutOfBounds 0x200 (some 0xB000) (some 0x10000) none := by decide

/-! ### Arithmetic and logic: V-ALU -/

/-- A1. -/
theorem test_ld_imm : (run 0x6AFF State.reset).getV 0xA = 0xFF := by decide
/-- A3. -/
theorem test_add_imm_wraps : let t := run 0x7203 (regs [(2, 0xFE), (0xF, 0x77)] State.reset)
    t.getV 2 = 0x01 ∧ t.getV 0xF = 0x77 := by decide
/-- A4. -/
theorem test_add_imm_vf : (run 0x7F01 (regs [(0xF, 0xFF)] State.reset)).getV 0xF = 0x00 := by decide
/-- A5. -/
theorem test_ld_reg : let t := run 0x8010 (regs [(1, 0x33)] State.reset)
    t.getV 0 = 0x33 ∧ t.getV 1 = 0x33 ∧ t.pc = 0x202 := by decide
/-- A6. -/
theorem test_or : let t := run 0x8011 (regs [(0, 0x0F), (1, 0xF0), (0xF, 0x55)] State.reset)
    t.getV 0 = 0xFF ∧ t.getV 0xF = 0x55 := by decide
/-- A7. -/
theorem test_or_resets_vf :
    let t := run 0x8011 (regs [(0, 0x0F), (1, 0xF0), (0xF, 0x55)] (under fun p => { p with vfResetLogic := true }))
    t.getV 0 = 0xFF ∧ t.getV 0xF = 0x00 := by decide
/-- A8. -/
theorem test_and : (run 0x8012 (regs [(0, 0x3C), (1, 0x0F)] State.reset)).getV 0 = 0x0C := by decide
/-- A9. -/
theorem test_xor : (run 0x8013 (regs [(0, 0x3C), (1, 0x0F)] State.reset)).getV 0 = 0x33 := by decide
/-- A15. -/
theorem test_add_into_vf : (run 0x8F14 (regs [(0xF, 0xFF), (1, 0x01)] State.reset)).getV 0xF = 1 := by decide
/-- A16. -/
theorem test_add_from_vf : let t := run 0x81F4 (regs [(0xF, 0x10), (1, 0x20)] State.reset)
    t.getV 1 = 0x30 ∧ t.getV 0xF = 0 := by decide
/-- A18. -/
theorem test_sub_equal : let t := run 0x8125 (regs [(1, 7), (2, 7), (0xF, 9)] State.reset)
    t.getV 1 = 0 ∧ t.getV 0xF = 1 := by decide
/-- A23. -/
theorem test_sub_into_vf : (run 0x8F25 (regs [(0xF, 0x10), (2, 0x20)] State.reset)).getV 0xF = 0 := by decide
/-- A29. -/
theorem test_shr_vx : let t := run 0x8126 (regs [(1, 4), (2, 3)] State.reset)
    t.getV 1 = 2 ∧ t.getV 0xF = 0 := by decide
/-- A30. -/
theorem test_shr_vy : let t := run 0x8126 (regs [(1, 4), (2, 3)] (under fun p => { p with shiftSource := .vy }))
    t.getV 1 = 1 ∧ t.getV 0xF = 1 := by decide
/-- A33. -/
theorem test_subn_borrow : let t := run 0x8127 (regs [(1, 5), (2, 3), (0xF, 9)] State.reset)
    t.getV 1 = 0xFE ∧ t.getV 0xF = 0 := by decide
/-- A34. -/
theorem test_subn_equal : let t := run 0x8117 (regs [(1, 6)] State.reset)
    t.getV 1 = 0 ∧ t.getV 0xF = 1 := by decide
/-- A39. -/
theorem test_shl_vx : let t := run 0x812E (regs [(1, 1), (2, 0x80)] State.reset)
    t.getV 1 = 2 ∧ t.getV 0xF = 0 := by decide
/-- A40. -/
theorem test_shl_vy : let t := run 0x812E (regs [(1, 1), (2, 0x80)] (under fun p => { p with shiftSource := .vy }))
    t.getV 1 = 0 ∧ t.getV 0xF = 1 := by decide
/-- A43, for any draw. -/
theorem test_rnd_mask : ∃ t, execRnd 3 0x00 (regs [(3, 9)] State.reset) = .next t ∧ t.getV 3 = 0 ∧ t.pc = 0x202 :=
  ⟨_, rfl, by simp [State.getV], rfl⟩

/-! ### Index register and memory: V-MEM -/

/-- M1. -/
theorem test_ld_i : (run 0xA2F0 State.reset).i = 0x2F0 := by decide
/-- M4. -/
theorem test_add_i_wraps : (run 0xF01E (regs [(0, 1)] { State.reset with i := 0xFFFF })).i = 0x0000 := by decide
/-- M5. -/
theorem test_add_i_keeps_vf : let t := run 0xFF1E (regs [(0xF, 5)] { State.reset with i := 0x300 })
    t.i = 0x305 ∧ t.getV 0xF = 5 := by decide
/-- M9, and W8: the glyph of digit 5 stands at that address. -/
theorem test_font_masked : let t := run 0xF029 (regs [(0, 0x15)] State.reset)
    t.i = 0x019 ∧ t.readBytes 0x019 5 = [0xF0, 0x80, 0xF0, 0x10, 0xF0] := by decide
/-- M10. -/
theorem test_font_fault : (run 0xF029 (regs [(0, 0x15)] (under fun p => { p with fontDigitPolicy := .fault }))).mode =
    fault .fontDigitOutOfRange 0x200 (some 0xF029) none (some 0x15) := by decide
/-- M13. -/
theorem test_bcd : let t := run 0xF333 (regs [(3, 0xFF)] { State.reset with i := 0x300 })
    t.readBytes 0x2FF 5 = [0, 2, 5, 5, 0] ∧ t.i = 0x300 := by decide
/-- M16. -/
theorem test_bcd_protected : let t := run 0xF333 (regs [(3, 0x7B)] { State.reset with i := 0x1FF })
    t.mode = fault .writeProtected 0x200 (some 0xF333) (some 0x1FF) none ∧ t.readByte 0x1FF = 0 := by decide
/-- M18, M20. -/
theorem test_store : let t := run 0xF255 (regs [(0, 1), (1, 2), (2, 3), (3, 4)] { State.reset with i := 0x400 })
    t.readBytes 0x400 4 = [1, 2, 3, 0] ∧ t.i = 0x400 := by decide
/-- M22. -/
theorem test_store_outside : let t := run 0xFF55 (regs [(0, 9)] { State.reset with i := 0xFF1 })
    t.mode = fault .memOutOfBounds 0x200 (some 0xFF55) (some 0x1000) none ∧ t.readByte 0xFF1 = 0 := by decide
/-- M25. -/
theorem test_load :
    let s : State := State.writeBytes { under (fun p => { p with loadStoreAdvanceI := true }) with i := 0x400 } 0x400 [1, 2, 3]
    let t := run 0xF265 (regs [(3, 0x99)] s)
    t.getV 0 = 1 ∧ t.getV 1 = 2 ∧ t.getV 2 = 3 ∧ t.getV 3 = 0x99 ∧ t.i = 0x403 := by decide
/-- M28. -/
theorem test_load_outside : (run 0xF065 { State.reset with i := 0x1000 }).mode =
    fault .memOutOfBounds 0x200 (some 0xF065) (some 0x1000) none := by decide

/-! ### Display: V-DSP -/

/-- D1, on one pixel. -/
theorem test_cls : let t := run 0x00E0 { State.reset with disp := flipPixel State.reset.disp 31 63 }
    t.pixel 31 63 = false ∧ t.pc = 0x202 := by decide
/-- W4 and D4: the sprite wraps in both directions. -/
theorem test_drw_wraps :
    let s : State := State.writeBytes { State.reset with i := 0x300 } 0x300 [0xC0, 0x80]
    let t := run 0xD012 (regs [(0, 0x3F), (1, 0x1F)] s)
    t.pixel 31 63 = true ∧ t.pixel 31 0 = true ∧ t.pixel 0 63 = true ∧ t.pixel 0 0 = false ∧ t.getV 0xF = 0 := by decide
/-- D8. -/
theorem test_drw_collides :
    let s : State := State.writeByte { State.reset with i := 0x300, disp := flipPixel State.reset.disp 0 0 } 0x300 0x81
    let t := run 0xD011 (regs [(1, 0)] s)
    t.pixel 0 0 = false ∧ t.pixel 0 7 = true ∧ t.getV 0xF = 1 := by decide

/-! ### Keypad and timers: V-KT -/

/-- The reset state with keys down. -/
def press (ks : List Key) (s : State) : State := { s with keys := ks.foldl (fun v k => v.set k.val true) s.keys }

/-- K1. -/
theorem test_skp : (run 0xE59E (regs [(5, 0x0A)] (press [0xA] State.reset))).pc = 0x204 := by decide
/-- K5. -/
theorem test_skp_index : (run 0xE59E (regs [(5, 0x10)] State.reset)).mode =
    fault .keyIndexOutOfRange 0x200 (some 0xE59E) none (some 0x10) := by decide
/-- K3. -/
theorem test_sknp : (run 0xE5A1 (regs [(5, 0x0A)] State.reset)).pc = 0x204 := by decide
/-- K6 on EXA1: under mask the key is 0, which is down. -/
theorem test_sknp_mask :
    (run 0xE5A1 (regs [(5, 0x10)] (press [0] (under fun p => { p with keyIndexPolicy := .mask })))).pc = 0x202 := by decide
/-- K8. -/
theorem test_read_dt : (run 0xFF07 { State.reset with dt := 0x3C }).getV 0xF = 0x3C := by decide
/-- K9, the setting. -/
theorem test_set_dt : let t := run 0xF115 (regs [(1, 60)] State.reset)
    t.dt = 60 ∧ t.st = 0 ∧ t.tick.dt = 59 := by decide
/-- K10. -/
theorem test_set_st : let t := run 0xF218 (regs [(2, 2)] State.reset)
    t.st = 2 ∧ t.soundActive = true ∧ t.tick.soundActive = true ∧ t.tick.tick.soundActive = false := by decide
/-- K12. -/
theorem test_wait_entry : let t := run 0xF30A (press [7] { State.reset with pc := 0x210 })
    t.mode = .awaitingKey 3 ∧ t.pc = 0x210 ∧ t.getV 3 = 0 := by decide
/-- K18. -/
theorem test_wait_entry_edge :
    let t := run 0xF30A (press [4] { under (fun p => { p with keyWaitTrigger := .pressEdge }) with pc := 0x210 })
    t.mode = .awaitingKey 3 ∧ t.keysAtWait[4] = true ∧ t.keysAtWait[5] = false := by decide
/-- K13. -/
theorem test_wait_ends :
    let s : State := press [7] { State.reset with pc := 0x210, mode := .awaitingKey 3 }
    ∃ t, step s = .next t ∧ t.getV 3 = 7 ∧ t.pc = 0x212 ∧ t.mode = .running := by
  intro s
  have h : s.waitKeys = [7] := by decide
  refine ⟨_, show waitCheck 3 s = _ by rw [waitCheck, h], ?_, rfl, rfl⟩
  rw [chooseKey_single]
  rfl
/-- K19: the key held from the start of the wait does not end it. -/
theorem test_wait_edge_held :
    let s : State := { under (fun p => { p with keyWaitTrigger := .pressEdge }) with pc := 0x210, mode := .awaitingKey 3 }
    let w : State := press [4] { s with keysAtWait := s.keysAtWait.set 4 true }
    (after (step w)).mode = .awaitingKey 3 ∧ (after (step w)).pc = 0x210 := by decide

/-! ### The host: V-HOST, K22 to K25, W5 -/

/-- H3. -/
theorem test_empty_rom : (after (step (after (loadRom [] State.reset)))).mode =
    fault .illegalInstruction 0x200 (some 0x0000) none none := by decide
/-- H6, with the code R220 gives the cause. -/
theorem test_fetch_fault_first : let t := after (step (State.writeByte { State.reset with pc := 0xFFF } 0xFFF 0xFF))
    t.mode = fault .fetchOutOfBounds 0xFFF none (some 0x1000) none ∧ t.faultCode = 1 := by decide
/-- H7. -/
theorem test_frame_waiting : let t := after (frame 3 [] { State.reset with mode := .awaitingKey 3, dt := 5 })
    t.dt = 4 ∧ t.mode = .awaitingKey 3 := by decide
/-- H9: the frame stops after the step that enters the wait. -/
theorem test_frame_enters_wait : let t := after (frame 3 [] { after (loadRom [0xF0, 0x0A, 0x00, 0x00] State.reset) with dt := 5 })
    t.mode = .awaitingKey 0 ∧ t.pc = 0x200 ∧ t.dt = 4 := by decide
/-- R264 and R201: a key pressed between the two steps of a frame is seen by the second. -/
theorem test_frame_key_between_steps : let s := after (loadRom [0x60, 0x0A, 0xE0, 0x9E] State.reset)
    (after (frame 2 [[], [(0xA, true)]] s)).pc = 0x206 ∧ (after (frame 2 [] s)).pc = 0x204 := by decide
/-- A frame that stops at the wait still lets the rest of its key updates arrive (log entry 19), so that the next check finds the key. -/
theorem test_frame_key_after_wait : let t := after (frame 3 [[], [(7, true)]] (after (loadRom [0xF0, 0x0A] State.reset)))
    t.mode = .awaitingKey 0 ∧ t.keyDown 7 = true ∧ t.waitKeys = [7] := by decide
/-- H10 and H11. -/
theorem test_idle : (after (loadRom [0x12, 0x00] State.reset)).idle = true ∧
    (after (loadRom [0x12, 0x02] State.reset)).idle = false := by decide
/-- K24 and K25. -/
theorem test_set_key : (after (setKey 15 true State.reset)).keyDown 15 = true ∧
    setKey 16 true State.reset = .refused .keyOutOfRange := ⟨by decide, rfl⟩
/-- K25 and R262: after a set_key that fails the host's later moves are made, from the same state. -/
theorem test_run_goes_on : let t := after (hostOps [.setKey 5 true, .setKey 16 true, .tick, .setKey 7 true] { State.reset with dt := 2 })
    t.dt = 1 ∧ t.keyDown 5 = true ∧ t.keyDown 7 = true ∧ t.keyDown 0 = false := by decide
/-- W5. -/
theorem test_tick : let t := State.tick { State.reset with dt := 1, st := 0 }
    t.dt = 0 ∧ t.st = 0 ∧ t.soundActive = false := by decide

/-! ### Witnesses: the hypotheses of each statement can be met, clause by clause, at the ends of their ranges

A statement with no hypotheses has none here. The cases inside its conclusion (a skip taken or not, a flag set or not, x = F, each parameter
value) are met by the tests above. -/

/-- The reset state with I elsewhere. -/
def indexAt (a : Word) (s : State) : State := { s with i := a }

theorem witness_DecodeOfEncode : (Instr.sys 0x0E1).wellFormed = true ∧ (Instr.sys 0x0EF).wellFormed = true := by decide
theorem witness_EncodeOfDecode : decode 0xFF65 = .instr (.ldLoad 0xF) ∧ decode 0x0000 = .instr (.sys 0) := by decide

theorem witness_EncodingsOfTheTable : sysAddrOk 0x000 = true ∧ sysAddrOk 0xFFF = true := by decide

/-- One state for each clause; the fetches from the last address that can be fetched from and from the first that cannot. -/
theorem witness_StepRunsDecodedInstruction :
    (∃ (s : State) (f : FaultRecord), s.mode = .faulted f) ∧ (∃ (s : State) (x : Reg), s.mode = .awaitingKey x) ∧
    (Fetches (State.writeBytes { State.reset with pc := 0xFFE } 0xFFE [0x6A, 0x01]) 0x6A01 ∧ decode 0x6A01 = .instr (.ldImm 0xA 1)) ∧
    (Fetches (State.writeBytes { State.reset with pc := 0xFFE } 0xFFE [0xF1, 0xFF]) 0xF1FF ∧ decode 0xF1FF = .illegal .familyF) ∧
    (∃ s : State, s.mode = .running ∧ s.pc = 0xFFF ∧ memSize ≤ s.pc.toNat + 1) :=
  ⟨⟨State.raise State.reset .stackUnderflow none none none, _, rfl⟩, ⟨{ State.reset with mode := .awaitingKey 3 }, _, rfl⟩,
    by decide, by decide, ⟨{ State.reset with pc := 0xFFF }, by decide⟩⟩

theorem witness_FetchIsBigEndian :
    (∃ s : State, s.mode = .running ∧ s.pc = 0xFFE ∧ s.pc.toNat + 1 < memSize) ∧
    ∃ s : State, s.mode = .running ∧ s.pc = 0x001 ∧ s.pc.toNat + 1 < memSize :=
  ⟨⟨{ State.reset with pc := 0xFFE }, by decide⟩, ⟨{ State.reset with pc := 0x001 }, by decide⟩⟩

theorem witness_PlacedWordRuns : 0xFFFF - 0x9A < 2 ^ 16 ∧ decode (BitVec.ofNat 16 (0xFFFF - 0x9A)) = .instr (.ldLoad 0xF) := by decide

theorem witness_SysFollowsPolicy :
    sysAddrOk 0x0E1 = true ∧ State.reset.params.sysPolicy = .fault ∧
      (under fun p => { p with sysPolicy := .nop }).params.sysPolicy = .nop := by decide

theorem witness_RetPopsReturnAddress :
    (∃ s : State, s.sp.val = (0 : Fin 16).val + 1) ∧ (∃ s : State, s.sp.val = (15 : Fin 16).val + 1) ∧ State.reset.sp.val = 0 :=
  ⟨⟨{ State.reset with sp := 1 }, rfl⟩, ⟨{ State.reset with sp := 16 }, rfl⟩, rfl⟩

theorem witness_CallPushesReturnAddress :
    State.reset.sp.val = (0 : Fin 16).val ∧ (∃ s : State, s.sp.val = (15 : Fin 16).val) ∧ ∃ s : State, s.sp.val = 16 :=
  ⟨rfl, ⟨{ State.reset with sp := 15 }, rfl⟩, ⟨{ State.reset with sp := 16 }, rfl⟩⟩

/-- Both bases, with the target at 0xFFFF and at 0x10000, and the largest target of the base nnn. -/
theorem witness_IndexedJump :
    (∃ s : State, JumpBaseIs s 0x000 0xFFFF ∧ 0xFFFF + (s.getV 0).toNat = 0xFFFF) ∧
    (∃ s : State, JumpBaseIs s 0x000 0xFFFF ∧ 0xFFFF + (s.getV 0).toNat = 0x10000) ∧
    ∃ s : State, JumpBaseIs s 0xFFF 0xFFF ∧ s.params.jpV0Base = .nnn ∧ 0xFFF + (s.getV 0).toNat = 0x10FE := by
  refine ⟨⟨indexAt 0xFFFF State.reset, ⟨fun _ => rfl, fun h => absurd h (by decide)⟩, by decide⟩,
    ⟨regs [(0, 1)] (indexAt 0xFFFF State.reset), ⟨fun _ => rfl, fun h => absurd h (by decide)⟩, by decide⟩,
    ⟨regs [(0, 0xFF)] (under fun p => { p with jpV0Base := .nnn }), ⟨fun h => absurd h (by decide), fun _ => rfl⟩, by decide,
      by decide⟩⟩

theorem witness_ShiftsSetShiftedOutBit :
    ShiftSourceIs (regs [(1, 4), (2, 3)] State.reset) 1 2 4 ∧
      ShiftSourceIs (regs [(1, 4), (2, 3)] (under fun p => { p with shiftSource := .vy })) 1 2 3 :=
  ⟨⟨fun _ => rfl, fun h => absurd h (by decide)⟩, ⟨fun h => absurd h (by decide), fun _ => rfl⟩⟩

theorem witness_LogicOperations :
    State.reset.params.vfResetLogic = false ∧ (under fun p => { p with vfResetLogic := true }).params.vfResetLogic = true := by decide

/-- The largest digit, a masked value, and the smallest value that faults. -/
theorem witness_FontGlyphAddress :
    ((regs [(0, 0x0F)] State.reset).getV 0).toNat < 16 ∧
    (((regs [(0, 0x10)] State.reset).getV 0).toNat = 16 ∧ State.reset.params.fontDigitPolicy = .mask) ∧
    ((regs [(0, 0x10)] (under fun p => { p with fontDigitPolicy := .fault })).getV 0).toNat = 16 ∧
      (under fun p => { p with fontDigitPolicy := .fault }).params.fontDigitPolicy = .fault := by decide

theorem witness_BcdStore :
    Writable (indexAt 0xFFD State.reset) 3 ∧ Writable (indexAt 0x200 State.reset) 3 ∧
      Writable (indexAt 0x000 (under fun p => { p with protectLow := .allow })) 3 := by decide

theorem witness_StoreRegisters :
    Writable (indexAt 0xFF0 State.reset) ((15 : Reg).val + 1) ∧ Writable (indexAt 0x200 State.reset) ((0 : Reg).val + 1) := by decide

theorem witness_LoadRegisters :
    Readable (indexAt 0xFF0 State.reset) ((15 : Reg).val + 1) ∧ Readable (indexAt 0x000 State.reset) ((0 : Reg).val + 1) ∧
      ¬ Readable (indexAt 0xFF1 State.reset) ((15 : Reg).val + 1) := by decide

/-- The last address under the protected boundary, and the first range that leaves memory, for each of the two instructions. -/
theorem witness_StoresFaultAtFirstBadAddress :
    (let s := indexAt 0x1FF State.reset;
      s.params.protectLow = .fault ∧ s.i.toNat < programBase) ∧
    (let s := indexAt 0xFFE State.reset;
      (s.params.protectLow = .fault → programBase ≤ s.i.toNat) ∧ memSize < s.i.toNat + 3) ∧
    (let s := indexAt 0x1000 State.reset;
      (s.params.protectLow = .fault → programBase ≤ s.i.toNat) ∧ memSize < s.i.toNat + ((0 : Reg).val + 1)) ∧
    (Instr.ldB 3 = .ldB 3 ∧ 3 = 3 ∧ wordXB 0xF 3 0x33 = 0xF333) ∧
    Instr.ldStore 15 = .ldStore 15 ∧ 16 = (15 : Reg).val + 1 ∧ wordXB 0xF 15 0x55 = 0xFF55 := by decide

theorem witness_DrawFlipsCoveredPixels :
    Readable (indexAt 0xFF1 State.reset) (0xF : Nibble).toNat ∧
      ((0 : Nibble) = 0 ∨ Readable (indexAt 0xFFFF State.reset) (0 : Nibble).toNat) := by
  decide

/-- A state in which a covered pixel is on, so that the draw collides, and one in which no pixel is covered. -/
theorem witness_DrawFlipsCoveredPixels_collision :
    (let s : State := State.writeByte { State.reset with i := 0x300, disp := flipPixel State.reset.disp 0 7 } 0x300 0x01;
      Readable s (1 : Nibble).toNat ∧ ∃ row col, SpriteCovers s 0 1 1 row col ∧ s.pixel row col = true) ∧
    ¬ ∃ row col, SpriteCovers State.reset 0 1 0 row col ∧ State.reset.pixel row col = true := by
  refine ⟨⟨by decide, 0, 7, ⟨0, 7, by decide⟩, by decide⟩, ?_⟩
  rintro ⟨row, col, ⟨r, c, h, -⟩, -⟩
  exact absurd h (by simp)

theorem witness_DrawOutsideMemoryFaults :
    ((2 : Nibble) ≠ 0 ∧ ¬ Readable (indexAt 0xFFF State.reset) (2 : Nibble).toNat) ∧
      ((1 : Nibble) ≠ 0 ∧ ¬ Readable (indexAt 0x1000 State.reset) (1 : Nibble).toNat) := by decide

theorem witness_DrawTwiceRestores :
    (0 : Reg) ≠ regF ∧ (0xE : Reg) ≠ regF ∧ Readable (indexAt 0xFF1 State.reset) (0xF : Nibble).toNat := by decide

/-- Two draws in a row on the sprite of W3. -/
theorem witness_SecondDrawCollidesIffSetBit :
    let s : State := State.writeByte (indexAt 0x300 State.reset) 0x300 0xFF
    Readable s (1 : Nibble).toNat ∧ ∃ t u, exec (.drw 0 1 1) s = .next t ∧ exec (.drw 0 1 1) t = .next u :=
  ⟨by decide, _, _, rfl, rfl⟩

/-- Key 15, a masked value, and the smallest value that faults. -/
theorem witness_KeySkips :
    ((15 : Key).val = ((regs [(5, 0x0F)] State.reset).getV 5).toNat % 16 ∧ ((regs [(5, 0x0F)] State.reset).getV 5).toNat < 16) ∧
    (let s := regs [(5, 0x10)] (under fun p => { p with keyIndexPolicy := .mask });
      (0 : Key).val = (s.getV 5).toNat % 16 ∧ s.params.keyIndexPolicy = .mask) ∧
    (let s := regs [(5, 0x10)] State.reset;
      16 ≤ (s.getV 5).toNat ∧ s.params.keyIndexPolicy = .fault) := by decide

/-- Under each trigger: no key down, and under press_edge a key held since the last check. -/
theorem witness_WaitWithoutKeyChangesNothing :
    (let s : State := { State.reset with mode := .awaitingKey 3 };
      s.mode = .awaitingKey 3 ∧ s.params.keyWaitTrigger = .level ∧ ∀ k, ¬ EndsWait s k) ∧
    let s : State := press [4] { under (fun p => { p with keyWaitTrigger := .pressEdge }) with
      mode := .awaitingKey 3, keysAtWait := State.reset.keysAtWait.set 4 true }
    s.mode = .awaitingKey 3 ∧ s.keyDown 4 = true ∧ ∀ k, ¬ EndsWait s k := by decide

theorem witness_WaitEndsWithSomeKey :
    (let s : State := press [2, 7] { State.reset with mode := .awaitingKey 3 };
      s.mode = .awaitingKey 3 ∧ ∃ k, EndsWait s k) ∧
    let s : State := press [4] { under (fun p => { p with keyWaitTrigger := .pressEdge }) with mode := .awaitingKey 15 }
    s.mode = .awaitingKey 15 ∧ ∃ k, EndsWait s k := by decide

/-- K15 and K16: the free number can give either key. -/
theorem witness_EveryKeyOfTheSetCanBeChosen : chooseKey 2 [7] 0 = 2 ∧ chooseKey 2 [7] 1 = 7 ∧ (5 : Key) ∉ [2, 7] := by decide

/-- One faulting instruction for each kind of information a record holds: an address, a value, neither. -/
theorem witness_FaultsArePrecise :
    (∀ g, State.reset.mode ≠ .faulted g) ∧
    (∃ t f, exec (.ldB 3) State.reset = .next t ∧ t.mode = .faulted f ∧ f.addr = some 0) ∧
    (∃ t f, exec (.skp 5) (regs [(5, 0x10)] State.reset) = .next t ∧ t.mode = .faulted f ∧ f.value = some 0x10) ∧
    ∃ t f, exec .ret State.reset = .next t ∧ t.mode = .faulted f ∧ f.addr = none :=
  ⟨fun _ h => Mode.noConfusion h, ⟨_, _, rfl, rfl, rfl⟩, ⟨_, _, rfl, rfl, rfl⟩, ⟨_, _, rfl, rfl, rfl⟩⟩

theorem witness_FaultedIsFinalUntilReset :
    let s : State := State.raise State.reset .stackUnderflow (some 0x00EE) none none
    ∃ f, s.mode = .faulted f := ⟨_, rfl⟩

theorem witness_OnlyCallAndRetChangeTheStack :
    (∀ nnn, Instr.ldImm 1 5 ≠ .call nnn) ∧ Instr.ldImm 1 5 ≠ .ret ∧ ∃ t, exec (.ldImm 1 5) State.reset = .next t :=
  ⟨by simp, by simp, ⟨_, rfl⟩⟩

theorem witness_OnlyStoresWriteMemory :
    (∀ x, Instr.drw 0 1 5 ≠ .ldB x) ∧ (∀ x, Instr.drw 0 1 5 ≠ .ldStore x) ∧ ∃ t, exec (.drw 0 1 5) State.reset = .next t :=
  ⟨by simp, by simp, ⟨_, rfl⟩⟩

theorem witness_OnlyClearAndDrawWriteTheDisplay :
    Instr.ldF 3 ≠ .cls ∧ (∀ x y n, Instr.ldF 3 ≠ .drw x y n) ∧ ∃ t, exec (.ldF 3) State.reset = .next t :=
  ⟨by simp, by simp, ⟨_, rfl⟩⟩

theorem witness_RegistersWrittenOnlyAsListed :
    ¬ writesReg State.reset.params (.ldLoad 2) 3 ∧ ¬ writesIndex State.reset.params (.ldLoad 2) ∧
      (∃ t, exec (.ldLoad 2) State.reset = .next t) ∧ writesReg State.reset.params (.ldLoad 2) 2 :=
  ⟨by show ¬ (3 : Reg) ≤ 2; decide, by show ¬ _ = true; decide, ⟨_, rfl⟩, by show (2 : Reg) ≤ 2; decide⟩

/-- A reset, a tick, and a step that changes DT and one that changes ST. -/
theorem witness_TimersWrittenOnlyAsListed :
    (∃ t, hostOp .reset State.reset = .next t) ∧ (∃ t, hostOp .tick State.reset = .next t) ∧
    (∃ t, hostOp .step ((regs [(1, 60)] State.reset).withFetchWord 16 0xF115) = .next t ∧
      t.dt ≠ ((regs [(1, 60)] State.reset).withFetchWord 16 0xF115).dt) ∧
    ∃ t, hostOp .step ((regs [(1, 60)] State.reset).withFetchWord 16 0xF118) = .next t ∧
      t.st ≠ ((regs [(1, 60)] State.reset).withFetchWord 16 0xF118).st :=
  ⟨⟨_, rfl⟩, ⟨_, rfl⟩, ⟨_, rfl, by decide⟩, ⟨_, rfl, by decide⟩⟩

/-- The invariant holds of the reset state, of a waiting state and of a faulted one inside a call, and each has a next state. -/
theorem witness_StepKeepsInvariant :
    (Inv State.reset ∧ ∃ t, step State.reset = .next t) ∧
    (∃ s : State, Inv s ∧ s.mode = .awaitingKey 3 ∧ s.pc = 0xFFE ∧ ∃ t, step s = .next t) ∧
    ∃ s : State, Inv s ∧ s.sp = 1 ∧ (∃ f, s.mode = .faulted f) ∧ ∃ t, step s = .next t := by
  refine ⟨⟨⟨by decide, nofun, nofun, by decide⟩, _, rfl⟩,
    ⟨{ State.reset with mode := .awaitingKey 3, pc := 0xFFE }, ⟨by decide, fun _ _ => by decide, nofun, by decide⟩, rfl, rfl, _, rfl⟩,
    ⟨State.raise { State.reset with sp := 1, stack := State.reset.stack.set 0 0x1000 } .stackUnderflow none none none,
      ⟨by decide, nofun, fun f h => ?_, by decide⟩, rfl, ⟨_, rfl⟩, _, rfl⟩⟩
  injection h with h
  rw [← h]
  rfl

theorem witness_StepKeepsLowMemory :
    State.reset.params.protectLow = .fault ∧ LowMemoryFixed State.reset ∧ ∃ t, step State.reset = .next t :=
  ⟨rfl, fun _ _ => rfl, _, rfl⟩

/-- Each move of the host at the reset state. -/
theorem witness_HostMovesKeepInvariant :
    Inv State.reset ∧ (Allowed (.loadRom [0x12, 0x00]) State.reset ∧ ∃ t, hostOp (.loadRom [0x12, 0x00]) State.reset = .next t) ∧
    (Allowed .reset State.reset ∧ ∃ t, hostOp .reset State.reset = .next t) ∧
    (Allowed .step State.reset ∧ ∃ t, hostOp .step State.reset = .next t) ∧
    (Allowed .tick State.reset ∧ ∃ t, hostOp .tick State.reset = .next t) ∧
    Allowed (.setKey 15 true) State.reset ∧ ∃ t, hostOp (.setKey 15 true) State.reset = .next t :=
  ⟨witness_StepKeepsInvariant.1.1, ⟨fun _ _ => rfl, _, rfl⟩, ⟨nofun, _, rfl⟩, ⟨nofun, _, rfl⟩, ⟨nofun, _, rfl⟩, nofun, _, rfl⟩

theorem witness_SetKeyWritesOneKey : (∃ k : Key, k.val = 15) ∧ ∃ k : Nat, 16 ≤ k ∧ k < 17 := ⟨⟨15, rfl⟩, ⟨16, by decide⟩⟩

/-- H1 and H2: the largest ROM and one byte more. -/
theorem witness_RomLoad :
    (List.replicate 3584 (0xAA : Byte)).length ≤ 3584 ∧ 3584 < (List.replicate 3585 (0xAA : Byte)).length := by
  simp only [List.length_replicate]
  decide

/-- A state that a program has changed, and its reset. -/
theorem witness_ResetValues : ∃ s t : State, s.getV 1 = 5 ∧ t = s.rebooted := ⟨regs [(1, 5)] State.reset, _, by decide, rfl⟩

/-- H10. -/
theorem witness_IdleStays :
    (after (loadRom [0x12, 0x00] State.reset)).idle = true ∧
      ∃ t, setKey 15 true (after (loadRom [0x12, 0x00] State.reset)) = .next t := ⟨by decide, _, rfl⟩

end Sys2Proof.Tests
end

section
/-! PROOFS. The frame calculus: one rule per state operation, saying which parts the operation may change. A state built by a chain of
operations is framed by the chain of their rules, against one set of parts that each rule asks for its own parts. -/

namespace Sys2Proof.Safety

open Sys2Proof.Machine

variable {s t u : State} {P : Part → Prop}

theorem Kept.refl (s : State) (p : Part) : Kept s s p := by cases p <;> rfl

theorem Kept.trans {p : Part} (h : Kept s t p) (h' : Kept t u p) : Kept s u p := by
  cases p <;> exact Eq.trans h' h

theorem KeptBut.refl (s : State) (P : Part → Prop) : KeptBut s s P := fun p _ => Kept.refl s p

theorem KeptBut.trans (h : KeptBut s t P) (h' : KeptBut t u P) : KeptBut s u P :=
  fun p hp => (h p hp).trans (h' p hp)

/-! ### The parts of plain data -/

theorem KeptBut.withPc (h : KeptBut s t P) (w : Word) (hp : P .pc) : KeptBut s { t with pc := w } P :=
  h.trans fun p hn => by
    cases p with
    | pc => exact absurd hp hn
    | _ => rfl

theorem KeptBut.withIndex (h : KeptBut s t P) (w : Word) (hp : P .index) : KeptBut s { t with i := w } P :=
  h.trans fun p hn => by
    cases p with
    | index => exact absurd hp hn
    | _ => rfl

theorem KeptBut.withSp (h : KeptBut s t P) (n : Fin 17) (hp : P .sp) : KeptBut s { t with sp := n } P :=
  h.trans fun p hn => by
    cases p with
    | sp => exact absurd hp hn
    | _ => rfl

/-- The entry a CALL pushes is the only one that changes (40_control_flow R104). -/
theorem KeptBut.withStackEntry (h : KeptBut s t P) (k : Fin 16) (w : Word) (hp : P (.stackEntry k)) :
    KeptBut s { t with stack := t.stack.set k.val w } P :=
  h.trans fun p hn => by
    cases p with
    | stackEntry j =>
      have hj : k.val ≠ j.val := fun e => hn (Fin.ext e ▸ hp)
      exact Vector.getElem_set_ne k.isLt j.isLt hj
    | _ => rfl

/-- Registers all at once, those outside `P` with the values they had. -/
theorem KeptBut.withV (h : KeptBut s t P) (v : Vector Byte 16) (hv : ∀ r : Reg, ¬ P (.reg r) → v[r.val] = t.v[r.val]) :
    KeptBut s { t with v := v } P :=
  h.trans fun p hn => by
    cases p with
    | reg r => exact hv r hn
    | _ => rfl

theorem KeptBut.withDt (h : KeptBut s t P) (b : Byte) (hp : P .dt) : KeptBut s { t with dt := b } P :=
  h.trans fun p hn => by
    cases p with
    | dt => exact absurd hp hn
    | _ => rfl

theorem KeptBut.withSt (h : KeptBut s t P) (b : Byte) (hp : P .st) : KeptBut s { t with st := b } P :=
  h.trans fun p hn => by
    cases p with
    | st => exact absurd hp hn
    | _ => rfl

theorem KeptBut.withDisp (h : KeptBut s t P) (d : Display) (hp : ∀ row col, P (.pixel row col)) :
    KeptBut s { t with disp := d } P :=
  h.trans fun p hn => by
    cases p with
    | pixel row col => exact absurd (hp row col) hn
    | _ => rfl

theorem KeptBut.withMode (h : KeptBut s t P) (m : Mode) (hp : P .mode) : KeptBut s { t with mode := m } P :=
  h.trans fun p hn => by
    cases p with
    | mode => exact absurd hp hn
    | _ => rfl

/-! ### The named operations -/

theorem KeptBut.advance (h : KeptBut s t P) (hp : P .pc) : KeptBut s t.advance P := h.withPc _ hp

theorem KeptBut.skipIf (h : KeptBut s t P) (c : Bool) (hp : P .pc) : KeptBut s (t.skipIf c) P := h.withPc _ hp

theorem KeptBut.jumpTo (h : KeptBut s t P) (nnn : Addr12) (hp : P .pc) : KeptBut s (t.jumpTo nnn) P := h.withPc _ hp

theorem KeptBut.raise (h : KeptBut s t P) (c : FaultCause) (o : Option Word) (a : Option Nat) (b : Option Byte) (hp : P .mode) :
    KeptBut s (t.raise c o a b) P := h.withMode _ hp

theorem KeptBut.countDraw (h : KeptBut s t P) (hp : P .draws) : KeptBut s t.countDraw P :=
  h.trans fun p hn => by
    cases p with
    | draws => exact absurd hp hn
    | _ => rfl

theorem KeptBut.setV (h : KeptBut s t P) {x : Reg} (b : Byte) (hp : P (.reg x)) : KeptBut s (t.setV x b) P :=
  h.withV _ fun r hn => by
    have hr : r ≠ x := fun e => hn (e ▸ hp)
    exact (State.getV_setV t x r b).trans (if_neg hr)

theorem KeptBut.setFlag (h : KeptBut s t P) (b : Bool) (hp : P (.reg regF)) : KeptBut s (t.setFlag b) P := h.setV _ hp

theorem KeptBut.setResultFlag (h : KeptBut s t P) {x : Reg} (r : Byte) (b : Bool) (hx : P (.reg x)) (hf : P (.reg regF)) :
    KeptBut s (t.setResultFlag x r b) P := (h.setV r hx).setFlag b hf

theorem KeptBut.resetLogicFlag (h : KeptBut s t P) (hp : t.params.vfResetLogic = true → P (.reg regF)) :
    KeptBut s t.resetLogicFlag P := by
  unfold State.resetLogicFlag
  split
  · exact h.setFlag _ (hp ‹_›)
  · exact h

theorem KeptBut.advanceIndex (h : KeptBut s t P) (x : Reg) (hp : t.params.loadStoreAdvanceI = true → P .index) :
    KeptBut s (t.advanceIndex x) P := by
  unfold State.advanceIndex
  split
  · exact h.withIndex _ (hp ‹_›)
  · exact h

theorem KeptBut.latchKeys (h : KeptBut s t P) (hp : ∀ k, P (.keyAtWait k)) : KeptBut s t.latchKeys P := by
  unfold State.latchKeys
  split
  · exact h
  · exact h.trans fun p hn => by
      cases p with
      | keyAtWait k => exact absurd (hp k) hn
      | _ => rfl

theorem KeptBut.loadRegs (h : KeptBut s t P) (a : Nat) {x : Reg} (hp : ∀ r ≤ x, P (.reg r)) : KeptBut s (t.loadRegs a x) P :=
  h.withV _ fun r hn => by
    have hr : ¬ r ≤ x := fun hle => hn (hp r hle)
    exact (State.getV_loadRegs t a x r).trans (if_neg hr)

theorem KeptBut.writeByte (h : KeptBut s t P) {a : Nat} (b : Byte) (hp : P (.byte a)) : KeptBut s (t.writeByte a b) P :=
  h.trans fun p hn => by
    cases p with
    | byte c =>
      have hc : c ≠ a := fun e => hn (e ▸ hp)
      simp [Kept, State.readByte_writeByte, hc]
    | _ => rfl

theorem KeptBut.writeBytes (h : KeptBut s t P) {a : Nat} (bs : List Byte) (hp : ∀ k < bs.length, P (.byte (a + k))) :
    KeptBut s (t.writeBytes a bs) P := by
  induction bs generalizing t a with
  | nil => exact h
  | cons b bs ih =>
    have hrest : ∀ k < bs.length, P (.byte (a + 1 + k)) := fun k hk => by
      have := hp (k + 1) (by simpa using hk)
      rwa [Nat.add_comm k 1, ← Nat.add_assoc] at this
    exact ih (h.writeByte b (hp 0 (by simp))) hrest

/-! ### Results -/

/-- Every next state the result answers keeps all parts of `s` but those of which `P` holds. -/
def ResultKeepsBut (s : State) (P : Part → Prop) (r : Result) : Prop := ∀ t, r = .next t → KeptBut s t P

theorem KeptBut.next (h : KeptBut s t P) : ResultKeepsBut s P (.next t) := by
  rintro _ ⟨⟩
  exact h

/-- A fault changes Mode alone (60_exceptions R221). -/
theorem faultIn_keepsBut (i : Instr) (s : State) (c : FaultCause) (a : Option Nat) (b : Option Byte) (hp : P .mode) :
    ResultKeepsBut s P (faultIn i s c a b) := ((KeptBut.refl s P).raise _ _ _ _ hp).next

/-- An access changes what its effect changes, or Mode alone where it faults. -/
theorem KeptBut.guardRange (h : KeptBut s t P) (i : Instr) (k : Access) (a n : Nat) (hp : P .mode) :
    ResultKeepsBut s P (guardRange i k a n s t) := by
  intro u hu
  rcases guardRange_cases hu with ⟨-, rfl⟩ | ⟨c, bad, -, rfl⟩
  · exact h
  · exact (KeptBut.refl s P).raise _ _ _ _ hp

end Sys2Proof.Safety
end

section
/-! PROOFS. Which parts an instruction may write, in one theorem over all instructions (10_state R22 to R30). -/

namespace Sys2Proof.Safety

open Sys2Proof.Machine

/-- The parts an instruction may write: registers and I as R22 to R24 list them, pc and Mode under every instruction (R26, R221), the
stack under CALL and SP under CALL and RET (R28), the display under CLS and DRW (R30), memory under `FX33` and `FX55` (20_memory R53), the timers
under `FX15` and `FX18` (R29), KeysAtWait under `FX0A` (R38), the model's count of draws under `CXNN`, and the keypad and the parameters
under none. -/
def mayWrite (p : Params) (i : Instr) : Part → Prop
  | .reg r => writesReg p i r
  | .index => writesIndex p i
  | .pc => True
  | .sp => i = .ret ∨ ∃ nnn, i = .call nnn
  | .stackEntry _ => ∃ nnn, i = .call nnn
  | .dt => ∃ x, i = .ldDtVx x
  | .st => ∃ x, i = .ldStVx x
  | .pixel _ _ => i = .cls ∨ ∃ x y n, i = .drw x y n
  | .key _ => False
  | .mode => True
  | .keyAtWait _ => ∃ x, i = .ldVxK x
  | .byte _ => ∃ x, i = .ldB x ∨ i = .ldStore x
  | .params => False
  | .draws => ∃ x nn, i = .rnd x nn

/-- What an instruction may do to a state, over all of them: whether it completes or faults, only the parts it may write change. -/
theorem exec_keepsBut (i : Instr) (s : State) : ResultKeepsBut s (mayWrite s.params i) (exec i s) := by
  have h : KeptBut s s (mayWrite s.params i) := .refl s _
  cases i with
  | cls => exact ((h.withDisp _ fun _ _ => .inl rfl).advance trivial).next
  | ret =>
    change ResultKeepsBut s _ (execRet s)
    unfold execRet
    split
    · exact ((h.withSp ⟨s.sp.val - 1, by omega⟩ (.inl rfl)).withPc _ trivial).next
    · exact faultIn_keepsBut _ _ _ _ _ trivial
  | sys nnn =>
    change ResultKeepsBut s _ (execSys nnn s)
    unfold execSys
    split
    · exact faultIn_keepsBut _ _ _ _ _ trivial
    · exact (h.advance trivial).next
  | jp nnn => exact (h.jumpTo nnn trivial).next
  | call nnn =>
    change ResultKeepsBut s _ (execCall nnn s)
    unfold execCall
    split
    · rename_i hsp
      exact (((h.withStackEntry ⟨s.sp.val, hsp⟩ _ ⟨nnn, rfl⟩).withSp _ (.inr ⟨nnn, rfl⟩)).jumpTo nnn trivial).next
    · exact faultIn_keepsBut _ _ _ _ _ trivial
  | seImm x nn | sneImm x nn | seReg x y | sneReg x y => exact (h.skipIf _ trivial).next
  | ldImm x nn | addImm x nn | ldReg x y | ldVxDt x => exact ((h.setV _ rfl).advance trivial).next
  | orReg x y | andReg x y | xorReg x y =>
    exact (((h.setV _ (.inl rfl)).resetLogicFlag fun hr => .inr ⟨hr, rfl⟩).advance trivial).next
  | addReg x y | subReg x y | shr x y | subn x y | shl x y =>
    exact ((h.setResultFlag _ _ (.inl rfl) (.inr rfl)).advance trivial).next
  | ldI nnn | addI x => exact ((h.withIndex _ trivial).advance trivial).next
  | jpV0 nnn =>
    change ResultKeepsBut s _ (execJpV0 nnn s)
    unfold execJpV0
    split
    · exact (h.withPc _ trivial).next
    · exact faultIn_keepsBut _ _ _ _ _ trivial
  | rnd x nn => exact (((h.countDraw ⟨x, nn, rfl⟩).setV _ rfl).advance trivial).next
  | drw x y n =>
    exact (((h.withDisp _ fun _ _ => .inr ⟨x, y, n, rfl⟩).setFlag _ rfl).advance trivial).guardRange _ _ _ _ trivial
  | skp x =>
    change ResultKeepsBut s _ (execSkp x s)
    unfold execSkp
    split
    · exact (h.skipIf _ trivial).next
    · exact faultIn_keepsBut _ _ _ _ _ trivial
  | sknp x =>
    change ResultKeepsBut s _ (execSknp x s)
    unfold execSknp
    split
    · exact (h.skipIf _ trivial).next
    · exact faultIn_keepsBut _ _ _ _ _ trivial
  | ldVxK x => exact ((h.latchKeys fun _ => ⟨x, rfl⟩).withMode _ trivial).next
  | ldDtVx x => exact ((h.withDt _ ⟨x, rfl⟩).advance trivial).next
  | ldStVx x => exact ((h.withSt _ ⟨x, rfl⟩).advance trivial).next
  | ldF x =>
    change ResultKeepsBut s _ (execLdF x s)
    unfold execLdF
    split
    · exact ((h.withIndex _ trivial).advance trivial).next
    · exact faultIn_keepsBut _ _ _ _ _ trivial
  | ldB x => exact ((h.writeBytes _ fun _ _ => ⟨x, .inl rfl⟩).advance trivial).guardRange _ _ _ _ trivial
  | ldStore x =>
    have hi : (s.writeBytes s.dataAddr (s.regsUpTo x)).params.loadStoreAdvanceI = true →
        writesIndex s.params (.ldStore x) := fun ha => by simpa [writesIndex] using ha
    exact (((h.writeBytes _ fun _ _ => ⟨x, .inr rfl⟩).advanceIndex x hi).advance trivial).guardRange _ _ _ _ trivial
  | ldLoad x =>
    exact (((h.loadRegs _ fun _ hr => hr).advanceIndex x fun ha => ha).advance trivial).guardRange _ _ _ _ trivial

end Sys2Proof.Safety
end

section
/-! PROOFS. The reset state (10_state R36), with the count of free values it keeps or starts from 0. -/

namespace Sys2Proof.Machine

/-- The reset contents of a font byte (20_memory R57). -/
theorem resetByte_font (p : Params) (d : Fin 16) (j : Fin 5) :
    resetByte p (p.fontBase.val + 5 * d.val + j.val) = p.fontGlyphs[d.val][j.val] := by
  have hd : (p.fontBase.val + 5 * d.val + j.val - p.fontBase.val) / 5 = d.val := by omega
  have hj : (p.fontBase.val + 5 * d.val + j.val - p.fontBase.val) % 5 = j.val := by omega
  unfold resetByte
  rw [dif_pos (by omega)]
  simp only [hd, hj]

theorem resetByte_outside_font (p : Params) {a : Nat} (h : a < p.fontBase.val ∨ p.fontBase.val + 80 ≤ a) :
    resetByte p a = 0 := dif_neg (by omega)

/-- A reset of any state differs from the reset state of its parameters in the count of free values only (log entry 3). -/
theorem State.resetWith_or_rebooted {s t : State} (h : t = State.resetWith s.params ∨ t = s.rebooted) :
    ∃ n, t = { State.resetWith s.params with draws := n } := by
  rcases h with rfl | rfl
  · exact ⟨0, rfl⟩
  · exact ⟨s.draws, rfl⟩

end Sys2Proof.Machine
end

section
/-! PROOFS. The obligations about the state's parts and their reset values. -/

namespace Sys2Proof.Proofs

open Sys2Proof.Machine Sys2Proof.Safety

/-- Settles O47: the stack entries and SP are among the parts only CALL and RET may write. -/
theorem onlyCallAndRetChangeTheStack : Obligations.OnlyCallAndRetChangeTheStack := by
  intro i s t ht
  have hkept := exec_keepsBut i s t ht
  constructor
  · intro hcall
    have hentry : ∀ k : Fin 16, t.stack[k.val] = s.stack[k.val] :=
      fun k => hkept (.stackEntry k) fun ⟨nnn, e⟩ => hcall nnn e
    exact Vector.ext fun k hk => hentry ⟨k, hk⟩
  · intro hcall hret
    exact hkept .sp fun hw => hw.elim hret fun ⟨nnn, e⟩ => hcall nnn e

/-- Settles O49: the pixels are among the parts only CLS and DRW may write. -/
theorem onlyClearAndDrawWriteTheDisplay : Obligations.OnlyClearAndDrawWriteTheDisplay := by
  intro i s t hcls hdrw ht row col
  exact exec_keepsBut i s t ht (.pixel row col) fun hw => hw.elim hcls fun ⟨x, y, n, e⟩ => hdrw x y n e

/-- Settles O50: the registers and I an instruction may write are those the lists give. -/
theorem registersWrittenOnlyAsListed : Obligations.RegistersWrittenOnlyAsListed := by
  intro i s t ht
  have hkept := exec_keepsBut i s t ht
  exact ⟨fun r => hkept (.reg r), hkept .index⟩

/-- Settles O54: at reset no memory byte is listed, the core runs, and the stack is empty. -/
theorem resetMeetsInvariants : Obligations.ResetMeetsInvariants := by
  intro p
  refine ⟨⟨Memory.wf_nil p, nofun, nofun, fun k hk => ?_⟩, fun a _ => State.resetWith_readByte p a⟩
  exact absurd hk (Nat.not_lt_zero k.val)

/-- Settles O59: memory reads as its reset contents, and every other part is the constant `State.resetWith` gives it. -/
theorem resetValues : Obligations.ResetValues := by
  intro s t ht
  obtain ⟨n, rfl⟩ := State.resetWith_or_rebooted ht
  refine ⟨resetByte_font s.params, fun a => resetByte_outside_font s.params, fun x => ?_, rfl, rfl, rfl, fun k => ?_, rfl, rfl,
    fun row col => pixelAt_blank row col, fun k => ⟨?_, ?_⟩, rfl⟩
  · exact Vector.getElem_replicate x.isLt
  · exact Vector.getElem_replicate k.isLt
  · exact Vector.getElem_replicate k.isLt
  · exact Vector.getElem_replicate k.isLt

end Sys2Proof.Proofs
end

section
/-! PROOFS. Which parts a step may change, from what an instruction and a wait check may (70_reset_and_hazards R263). -/

namespace Sys2Proof.Safety

open Sys2Proof.Machine

variable {s t : State} {P Q : Part → Prop}

theorem KeptBut.mono (h : KeptBut s t P) (hPQ : ∀ p, P p → Q p) : KeptBut s t Q := fun p hn => h p fun hp => hn (hPQ p hp)

theorem ResultKeepsBut.mono {r : Result} (h : ResultKeepsBut s P r) (hPQ : ∀ p, P p → Q p) : ResultKeepsBut s Q r :=
  fun t ht => (h t ht).mono hPQ

/-- A store changes Mode alone where it faults, so its effect is framed under the passed check (20_memory R52, R53). -/
theorem guardRange_write_keepsBut (i : Instr) {n : Nat} (hn : 0 < n) (hmode : P .mode) (h : Writable s n → KeptBut s t P) :
    ResultKeepsBut s P (guardRange i .write s.dataAddr n s t) := by
  intro u hu
  rcases guardRange_cases hu with ⟨hpass, rfl⟩ | ⟨c, bad, -, rfl⟩
  · exact h ((checkRange_write_none _ _ _ hn).1 hpass)
  · exact (KeptBut.refl s P).raise _ _ _ _ hmode

/-- The parts a wait check may write: the register that waits, pc and Mode at the end of the wait, and the keys it latches (44_keypad_timers
R207), with the model's count of draws. -/
def waitMayWrite (x : Reg) : Part → Prop
  | .reg r => r = x
  | .pc => True
  | .mode => True
  | .keyAtWait _ => True
  | .draws => True
  | _ => False

theorem waitCheck_keepsBut (x : Reg) (s : State) : ResultKeepsBut s (waitMayWrite x) (waitCheck x s) := by
  have hlatch : KeptBut s s.latchKeys (waitMayWrite x) := (KeptBut.refl s _).latchKeys fun _ => trivial
  rcases waitCheck_cases x s with ⟨-, h⟩ | ⟨_, -, h⟩
  · rw [h]
    exact hlatch.next
  · rw [h]
    exact ((((hlatch.countDraw trivial).withMode _ trivial).setV _ rfl).advance trivial).next

/-- A step changes what the wait check or the instruction it makes changes, or Mode alone. -/
theorem step_keepsBut (hmode : P .mode) (hwait : ∀ x, ResultKeepsBut s P (waitCheck x s))
    (hexec : ∀ i, ResultKeepsBut s P (exec i s)) : ResultKeepsBut s P (step s) := by
  have hs : KeptBut s s P := .refl s P
  rcases step_cases (rfl : step s = step s) with
    ⟨-, -, h⟩ | ⟨x, -, h⟩ | ⟨-, -, h⟩ | ⟨w, -, -, -, ⟨-, -, h⟩ | ⟨i, -, h⟩⟩ <;> rw [h]
  · exact hs.next
  · exact hwait x
  · exact (hs.raise _ _ _ _ hmode).next
  · exact (hs.raise _ _ _ _ hmode).next
  · exact hexec i

/-- The parts a step may change under `PROTECT_LOW = fault`: all but the parameters and the bytes below 0x200 (20_memory R53). -/
def outsideLowMemory : Part → Prop
  | .params => False
  | .byte a => programBase ≤ a
  | _ => True

/-- A store whose check passed under `PROTECT_LOW = fault` writes from 0x200 on only. -/
theorem KeptBut.writeBytes_above_low {n : Nat} (hlow : s.params.protectLow = .fault) (hw : Writable s n) (bs : List Byte) :
    KeptBut s (s.writeBytes s.dataAddr bs) outsideLowMemory :=
  (KeptBut.refl s _).writeBytes bs fun _ _ => Nat.le_add_right_of_le (hw.2 hlow)

theorem exec_keeps_lowMemory (hlow : s.params.protectLow = .fault) (i : Instr) :
    ResultKeepsBut s outsideLowMemory (exec i s) := by
  by_cases hstore : ∃ x, i = .ldB x ∨ i = .ldStore x
  · obtain ⟨x, rfl | rfl⟩ := hstore
    · exact guardRange_write_keepsBut _ (by decide) trivial fun hw => (KeptBut.writeBytes_above_low hlow hw _).advance trivial
    · exact guardRange_write_keepsBut _ x.val.succ_pos trivial fun hw =>
        ((KeptBut.writeBytes_above_low hlow hw _).advanceIndex x fun _ => trivial).advance trivial
  · refine (exec_keepsBut i s).mono fun p hp => ?_
    cases p with
    | byte _ => exact absurd hp hstore
    | params => exact hp
    | _ => trivial

theorem waitCheck_keeps_lowMemory (x : Reg) (s : State) : ResultKeepsBut s outsideLowMemory (waitCheck x s) :=
  (waitCheck_keepsBut x s).mono fun p hp => by
    cases p with
    | byte _ | params => exact hp.elim
    | _ => trivial

theorem LowMemoryFixed.of_keptBut (h : LowMemoryFixed s) (ht : KeptBut s t outsideLowMemory) : LowMemoryFixed t := by
  intro a ha
  have hbyte : t.readByte a = s.readByte a := ht (.byte a) (Nat.not_le.2 ha)
  have hparams : t.params = s.params := ht .params id
  rw [hbyte, hparams, h a ha]

end Sys2Proof.Safety
end

section
/-! PROOFS. The word the next step fetches, and the word the model puts there (20_memory R51; log entry 14). -/

namespace Sys2Proof.Machine

open Sys2Proof.Safety

/-- Big-endian (20_memory R51): the byte at the lower address is worth 256. -/
theorem wordOfBytes_eq_ofNat (hi lo : Byte) : wordOfBytes hi lo = BitVec.ofNat 16 (hi.toNat * 0x100 + lo.toNat) := by
  apply BitVec.eq_of_toNat_eq
  have hhi := hi.isLt
  have hlo := lo.isLt
  rw [wordOfBytes, BitVec.toNat_append, ← Nat.shiftLeft_add_eq_or_of_lt hlo, Nat.shiftLeft_eq, BitVec.toNat_ofNat]
  omega

/-- The word of the two bytes at pc is the one the next step fetches. -/
theorem fetches_wordOfBytes {s : State} (hrun : s.mode = .running) (hpc : s.pc.toNat + 1 < memSize) :
    Fetches s (wordOfBytes (s.readByte s.pc.toNat) (s.readByte (s.pc.toNat + 1))) :=
  ⟨hrun, hpc, (highByte_wordOfBytes _ _).symm, (lowByte_wordOfBytes _ _).symm⟩

theorem fetch_of_fetches {s : State} {w : Word} (h : Fetches s w) : s.fetch = .word w := by
  obtain ⟨-, hpc, hhi, hlo⟩ := h
  rw [State.fetch_inside hpc, hhi, hlo, wordOfBytes_split]

theorem step_of_fetches {s : State} {w : Word} (h : Fetches s w) : step s = runWord w s := by
  simp only [step, h.1, fetch_of_fetches h]

theorem runWord_of_decode {w : Word} {i : Instr} (h : decode w = .instr i) (s : State) : runWord w s = exec i s := by
  simp only [runWord, h]

/-- Two bytes written at a pc inside memory are the word a running core fetches there. -/
theorem fetches_writeBytes {s : State} (w : Word) (hrun : s.mode = .running) (hpc : s.pc.toNat + 1 < memSize) :
    Fetches (s.writeBytes s.pc.toNat [highByte w, lowByte w]) w := by
  refine ⟨by simpa using hrun, by simpa using hpc, ?_, ?_⟩
  · simpa using State.readByte_writeBytes s s.pc.toNat [highByte w, lowByte w] 0 (by simp)
  · simpa using State.readByte_writeBytes s s.pc.toNat [highByte w, lowByte w] 1 (by simp)

theorem fetches_placeWord (s : State) (w : Word) : Fetches (s.placeWord w) w := by
  unfold State.placeWord
  split
  · exact fetches_writeBytes (s := { s with mode := .running, pc := s.pc }) w rfl ‹_›
  · exact fetches_writeBytes (s := { s with mode := .running, pc := 0x200 }) w rfl
      (by decide : (0x200 : Word).toNat + 1 < memSize)

theorem decodeBytes_tableBytes {w : Nat} (hw : w < 2 ^ 16) : decodeBytes (tableBytes 16 w) = decode (BitVec.ofNat 16 w) := by
  simp only [tableBytes, decodeBytes, Nat.mod_eq_of_lt hw, wordOfBytes_split]

theorem decodeTableWord_of_decode {w : Nat} {i : Instr} (hw : w < 2 ^ 16) (h : decode (BitVec.ofNat 16 w) = .instr i) :
    decodeTableWord 16 w = some i := by
  simp only [decodeTableWord, decodeBytes_tableBytes hw, h]

theorem fetches_withFetchWord (s : State) {w : Nat} (hw : w < 2 ^ 16) : Fetches (s.withFetchWord 16 w) (BitVec.ofNat 16 w) := by
  rw [State.withFetchWord, Nat.mod_eq_of_lt hw]
  exact fetches_placeWord s _

end Sys2Proof.Machine
end

section
/-! PROOFS. The obligations about memory (20_memory). -/

namespace Sys2Proof.Proofs

open Sys2Proof.Machine Sys2Proof.Safety

/-- Settles O53: a store below 0x200 faults before it writes, and nothing else in a step writes memory or the parameters. -/
theorem stepKeepsLowMemory : Obligations.StepKeepsLowMemory := by
  intro s t hlow hfixed ht
  have hkept : ResultKeepsBut s outsideLowMemory (step s) :=
    step_keepsBut trivial (fun x => waitCheck_keeps_lowMemory x s) (exec_keeps_lowMemory hlow)
  exact LowMemoryFixed.of_keptBut hfixed (hkept t ht)

/-- Settles O9: the placed word is the one the step fetches, and its decoding is the instruction. -/
theorem placedWordRuns : Obligations.PlacedWordRuns := by
  intro s w i hw hi
  refine ⟨decodeTableWord_of_decode hw hi, ?_⟩
  rw [step_of_fetches (fetches_withFetchWord s hw), runWord_of_decode hi]

/-- Settles O48: the bytes of memory are among the parts only `FX33` and `FX55` may write. -/
theorem onlyStoresWriteMemory : Obligations.OnlyStoresWriteMemory := by
  intro i s t hldB hldStore ht a
  exact exec_keepsBut i s t ht (.byte a) fun ⟨x, hw⟩ => hw.elim (hldB x) (hldStore x)

/-- Settles O7: a fetch puts the two bytes at pc together, the first one high. -/
theorem fetchIsBigEndian : Obligations.FetchIsBigEndian := by
  intro s hrun hpc
  have hfetches := fetches_wordOfBytes hrun hpc
  rw [wordOfBytes_eq_ofNat] at hfetches
  exact ⟨hfetches, fetch_of_fetches hfetches⟩

end Sys2Proof.Proofs
end

section
/-! PROOFS. What decoding answers for each family of words, and that no bit of a word is lost (30_encoding R71 to R82). -/

namespace Sys2Proof

variable {w : Word} {f n : Nibble} {i : Instr}

/-! ### A word of a known family is its fields put together -/

theorem packA_of_fieldF (hf : fieldF w = f) : packA f (fieldNNN w) = w := hf ▸ packA_fields w

theorem packXB_of_fields {nn : Byte} (hf : fieldF w = f) (hnn : fieldNN w = nn) : packXB f (fieldX w) nn = w :=
  hf ▸ hnn ▸ packXB_fields w

theorem packXYN_of_fields (hf : fieldF w = f) (hn : fieldN w = n) : packXYN f (fieldX w) (fieldY w) n = w :=
  hf ▸ hn ▸ packXYN_fields w

/-! ### Decoding, family by family (R74) -/

/-- The families of R74: what a word decodes to is settled by its first nibble. -/
theorem decode_families (w : Word) :
    (fieldF w = 0x0 ∧ decode w = decode0 w) ∨
    (fieldF w = 0x1 ∧ decode w = .instr (.jp (fieldNNN w))) ∨
    (fieldF w = 0x2 ∧ decode w = .instr (.call (fieldNNN w))) ∨
    (fieldF w = 0x3 ∧ decode w = .instr (.seImm (fieldX w) (fieldNN w))) ∨
    (fieldF w = 0x4 ∧ decode w = .instr (.sneImm (fieldX w) (fieldNN w))) ∨
    (fieldF w = 0x5 ∧ decode w = if fieldN w = 0#4 then .instr (.seReg (fieldX w) (fieldY w)) else .illegal .family5) ∨
    (fieldF w = 0x6 ∧ decode w = .instr (.ldImm (fieldX w) (fieldNN w))) ∨
    (fieldF w = 0x7 ∧ decode w = .instr (.addImm (fieldX w) (fieldNN w))) ∨
    (fieldF w = 0x8 ∧ decode w = decode8 w) ∨
    (fieldF w = 0x9 ∧ decode w = if fieldN w = 0#4 then .instr (.sneReg (fieldX w) (fieldY w)) else .illegal .family9) ∨
    (fieldF w = 0xA ∧ decode w = .instr (.ldI (fieldNNN w))) ∨
    (fieldF w = 0xB ∧ decode w = .instr (.jpV0 (fieldNNN w))) ∨
    (fieldF w = 0xC ∧ decode w = .instr (.rnd (fieldX w) (fieldNN w))) ∨
    (fieldF w = 0xD ∧ decode w = .instr (.drw (fieldX w) (fieldY w) (fieldN w))) ∨
    (fieldF w = 0xE ∧ decode w = decodeE w) ∨
    (fieldF w = 0xF ∧ decode w = decodeF w) := by
  have hf : ∀ f : Nibble, f = 0x0 ∨ f = 0x1 ∨ f = 0x2 ∨ f = 0x3 ∨ f = 0x4 ∨ f = 0x5 ∨ f = 0x6 ∨ f = 0x7 ∨
      f = 0x8 ∨ f = 0x9 ∨ f = 0xA ∨ f = 0xB ∨ f = 0xC ∨ f = 0xD ∨ f = 0xE ∨ f = 0xF := by decide
  rcases hf (fieldF w) with h | h | h | h | h | h | h | h | h | h | h | h | h | h | h | h <;> simp [decode, h]

/-! ### Decoding loses no bit (R80) -/

/-- The words of CLS and RET are those of a SYS with the two `nnn` that R82 takes from it. -/
theorem sysAddrOk_iff {nnn : Addr12} : sysAddrOk nnn = true ↔ packA 0x0 nnn ≠ 0x00E0 ∧ packA 0x0 nnn ≠ 0x00EE := by
  have hinj : ∀ a : Addr12, packA 0x0 nnn = packA 0x0 a ↔ nnn = a := fun a =>
    ⟨fun h => by simpa using congrArg fieldNNN h, congrArg _⟩
  rw [show (0x00E0 : Word) = packA 0x0 0x0E0 from rfl, show (0x00EE : Word) = packA 0x0 0x0EE from rfl]
  simp only [sysAddrOk, Bool.and_eq_true, bne_iff_ne, ne_eq, hinj]

theorem encode_of_decode0 (hf : fieldF w = 0x0) (h : decode0 w = .instr i) : encode i = w ∧ i.wellFormed = true := by
  unfold decode0 at h
  split at h
  case isTrue hcls => cases h; exact ⟨hcls.symm, rfl⟩
  case isFalse hcls =>
    split at h
    case isTrue hret => cases h; exact ⟨hret.symm, rfl⟩
    case isFalse hret =>
      cases h
      have hw : packA 0x0 (fieldNNN w) = w := packA_of_fieldF hf
      exact ⟨hw, sysAddrOk_iff.2 (by rw [hw]; exact ⟨hcls, hret⟩)⟩

theorem encode_of_decode8 (hf : fieldF w = 0x8) (h : decode8 w = .instr i) : encode i = w ∧ i.wellFormed = true := by
  simp only [decode8] at h
  split at h <;> cases h <;> exact ⟨packXYN_of_fields hf ‹_›, rfl⟩

theorem encode_of_decodeE (hf : fieldF w = 0xE) (h : decodeE w = .instr i) : encode i = w ∧ i.wellFormed = true := by
  unfold decodeE at h
  split at h <;> cases h <;> exact ⟨packXB_of_fields hf ‹_›, rfl⟩

theorem encode_of_decodeF (hf : fieldF w = 0xF) (h : decodeF w = .instr i) : encode i = w ∧ i.wellFormed = true := by
  simp only [decodeF] at h
  split at h <;> cases h <;> exact ⟨packXB_of_fields hf ‹_›, rfl⟩

/-! ### Encoding loses no operand (R80, R82) -/

theorem decode0_packA {nnn : Addr12} (h : sysAddrOk nnn = true) : decode0 (packA 0x0 nnn) = .instr (.sys nnn) := by
  obtain ⟨hcls, hret⟩ := sysAddrOk_iff.1 h
  rw [decode0, if_neg hcls, if_neg hret, fieldNNN_packA]

/-- One case a row of R80: the first nibble picks the family, a sub-opcode the row, and the fields give the operands back. -/
theorem decode_encode (h : i.wellFormed = true) : decode (encode i) = .instr i := by
  cases i
  case cls | ret => rfl
  case sys nnn => simpa [encode, decode] using decode0_packA h
  case ldReg | orReg | andReg | xorReg | addReg | subReg | shr | subn | shl => simp [encode, decode, decode8]
  case skp | sknp => simp [encode, decode, decodeE]
  case ldVxDt | ldVxK | ldDtVx | ldStVx | addI | ldF | ldB | ldStore | ldLoad => simp [encode, decode, decodeF]
  case jp | call | ldI | jpV0 => simp [encode, decode]
  case seImm | sneImm | ldImm | addImm | rnd => simp [encode, decode]
  case seReg | sneReg | drw => simp [encode, decode]

/-! ### The illegal words, as numbers (R81) -/

theorem decode0_legal (why : Illegal) : decode0 w ≠ .illegal why := by
  unfold decode0
  split
  · nofun
  · split <;> nofun

theorem toNat_mem_iff {k : Nat} (x : BitVec k) (l : List (BitVec k)) : x.toNat ∈ l.map BitVec.toNat ↔ x ∈ l :=
  List.mem_map_of_injective BitVec.toNat_injective

theorem fieldN_eq_zero_iff (w : Word) : fieldN w = 0#4 ↔ w.toNat % 0x10 = 0 := by
  rw [← fieldN_toNat, BitVec.toNat_eq, BitVec.toNat_ofNat, Nat.zero_mod]

/-- Families 5 and 9: the one row is that with n = 0. -/
theorem ite_fieldN_illegal_iff {reason : Illegal} :
    (∃ why, (if fieldN w = 0#4 then Decoded.instr i else .illegal reason) = .illegal why) ↔ w.toNat % 0x10 ≠ 0 := by
  rw [ne_eq, ← fieldN_eq_zero_iff]
  split <;> simp [*]

theorem decode8_illegal_iff :
    (∃ why, decode8 w = .illegal why) ↔ w.toNat % 0x10 ∈ [0x8, 0x9, 0xA, 0xB, 0xC, 0xD, 0xF] := by
  have hn : ∀ n : Nibble, n.toNat ∈ [0x8, 0x9, 0xA, 0xB, 0xC, 0xD, 0xF] ↔
      n ∉ [0x0#4, 0x1#4, 0x2#4, 0x3#4, 0x4#4, 0x5#4, 0x6#4, 0x7#4, 0xE#4] := by decide
  rw [← fieldN_toNat, hn]
  simp only [decode8]
  split <;> simp_all

theorem decodeE_illegal_iff : (∃ why, decodeE w = .illegal why) ↔ w.toNat % 0x100 ∉ [0x9E, 0xA1] := by
  rw [← fieldNN_toNat, show [0x9E, 0xA1] = [0x9E#8, 0xA1].map BitVec.toNat from rfl, toNat_mem_iff]
  unfold decodeE
  split <;> simp_all

theorem decodeF_illegal_iff : (∃ why, decodeF w = .illegal why) ↔
    w.toNat % 0x100 ∉ [0x07, 0x0A, 0x15, 0x18, 0x1E, 0x29, 0x33, 0x55, 0x65] := by
  rw [← fieldNN_toNat, show [0x07, 0x0A, 0x15, 0x18, 0x1E, 0x29, 0x33, 0x55, 0x65] =
    [0x07#8, 0x0A, 0x15, 0x18, 0x1E, 0x29, 0x33, 0x55, 0x65].map BitVec.toNat from rfl, toNat_mem_iff]
  simp only [decodeF]
  split <;> simp_all

end Sys2Proof
end

section
/-! PROOFS. The words of the opcode table, as the statements lay them out (30_encoding R73). -/

namespace Sys2Proof.Safety

variable {i : Instr} {w : Word} {f : Nat}

theorem encodes_of_encode (hi : i.wellFormed = true) (hw : encode i = w) : Encodes w i := ⟨hw, hw ▸ decode_encode hi⟩

theorem encodes_wordA {nnn : Addr12} (hf : f < 16 := by decide) (hi : i.wellFormed = true := by rfl)
    (hw : encode i = packA (BitVec.ofNat 4 f) nnn := by rfl) : Encodes (wordA f nnn) i :=
  encodes_of_encode hi (hw.trans (wordA_eq_packA hf nnn).symm)

theorem encodes_wordXB {x : Reg} {nn : Byte} (hf : f < 16 := by decide) (hi : i.wellFormed = true := by rfl)
    (hw : encode i = packXB (BitVec.ofNat 4 f) x nn := by rfl) : Encodes (wordXB f x nn) i :=
  encodes_of_encode hi (hw.trans (wordXB_eq_packXB hf x nn).symm)

theorem encodes_wordXYN {x y : Reg} {n : Nibble} (hf : f < 16 := by decide) (hi : i.wellFormed = true := by rfl)
    (hw : encode i = packXYN (BitVec.ofNat 4 f) x y n := by rfl) : Encodes (wordXYN f x y n) i :=
  encodes_of_encode hi (hw.trans (wordXYN_eq_packXYN hf x y n).symm)

end Sys2Proof.Safety
end

section
/-! PROOFS. The obligations about encoding (30_encoding). -/

namespace Sys2Proof.Proofs

open Sys2Proof.Safety

/-- Settles O1: each field of a packed word is the operand put there, and CLS and RET are no SYS. -/
theorem decodeOfEncode : Obligations.DecodeOfEncode := fun _ => decode_encode

/-- Settles O2: the word of a decoding is its fields put together, family by family. -/
theorem encodeOfDecode : Obligations.EncodeOfDecode := by
  intro w i h
  rcases decode_families w with
    ⟨hf, hd⟩ | ⟨hf, hd⟩ | ⟨hf, hd⟩ | ⟨hf, hd⟩ | ⟨hf, hd⟩ | ⟨hf, hd⟩ | ⟨hf, hd⟩ | ⟨hf, hd⟩ |
    ⟨hf, hd⟩ | ⟨hf, hd⟩ | ⟨hf, hd⟩ | ⟨hf, hd⟩ | ⟨hf, hd⟩ | ⟨hf, hd⟩ | ⟨hf, hd⟩ | ⟨hf, hd⟩ <;> rw [hd] at h
  · exact encode_of_decode0 hf h
  · cases h; exact ⟨packA_of_fieldF hf, rfl⟩
  · cases h; exact ⟨packA_of_fieldF hf, rfl⟩
  · cases h; exact ⟨packXB_of_fields hf rfl, rfl⟩
  · cases h; exact ⟨packXB_of_fields hf rfl, rfl⟩
  · split at h <;> cases h; exact ⟨packXYN_of_fields hf ‹_›, rfl⟩
  · cases h; exact ⟨packXB_of_fields hf rfl, rfl⟩
  · cases h; exact ⟨packXB_of_fields hf rfl, rfl⟩
  · exact encode_of_decode8 hf h
  · split at h <;> cases h; exact ⟨packXYN_of_fields hf ‹_›, rfl⟩
  · cases h; exact ⟨packA_of_fieldF hf, rfl⟩
  · cases h; exact ⟨packA_of_fieldF hf, rfl⟩
  · cases h; exact ⟨packXB_of_fields hf rfl, rfl⟩
  · cases h; exact ⟨packXYN_of_fields hf rfl, rfl⟩
  · exact encode_of_decodeE hf h
  · exact encode_of_decodeF hf h

/-- Settles O3: each row's number is the packed word of the encoder, and decoding gives the instruction back. -/
theorem encodingsOfTheTable : Obligations.EncodingsOfTheTable := by
  intro nnn x y nn n
  exact ⟨encodes_of_encode rfl rfl, encodes_of_encode rfl rfl, fun h => encodes_wordA (hi := h),
    encodes_wordA, encodes_wordA,
    encodes_wordXB, encodes_wordXB, encodes_wordXYN, encodes_wordXB, encodes_wordXB,
    encodes_wordXYN, encodes_wordXYN, encodes_wordXYN, encodes_wordXYN, encodes_wordXYN,
    encodes_wordXYN, encodes_wordXYN, encodes_wordXYN, encodes_wordXYN,
    encodes_wordXYN, encodes_wordA, encodes_wordA, encodes_wordXB, encodes_wordXYN,
    encodes_wordXB, encodes_wordXB,
    encodes_wordXB, encodes_wordXB, encodes_wordXB, encodes_wordXB, encodes_wordXB,
    encodes_wordXB, encodes_wordXB, encodes_wordXB, encodes_wordXB⟩

/-- Settles O4: in the eleven families without a check every word decodes; in the other five the illegal words are those whose
sub-opcode is in no row. -/
theorem illegalWordsAreThoseListed : Obligations.IllegalWordsAreThoseListed := by
  intro w
  rcases decode_families w with
    ⟨hf, hd⟩ | ⟨hf, hd⟩ | ⟨hf, hd⟩ | ⟨hf, hd⟩ | ⟨hf, hd⟩ | ⟨hf, hd⟩ | ⟨hf, hd⟩ | ⟨hf, hd⟩ |
    ⟨hf, hd⟩ | ⟨hf, hd⟩ | ⟨hf, hd⟩ | ⟨hf, hd⟩ | ⟨hf, hd⟩ | ⟨hf, hd⟩ | ⟨hf, hd⟩ | ⟨hf, hd⟩ <;>
    rw [hd, ← fieldF_toNat, hf] <;>
    simp [decode0_legal, ite_fieldN_illegal_iff, decode8_illegal_iff, decodeE_illegal_iff, decodeF_illegal_iff]

/-- Settles O5, by running `decode` on the twelve words. That 0x00E1 decodes to a SYS is the model's reading (log entry 10, the spec's
decision D4): `SYS_POLICY` acts when it is executed. -/
theorem writtenOutWordsDecode : Obligations.WrittenOutWordsDecode := by
  unfold Obligations.WrittenOutWordsDecode
  decide

end Sys2Proof.Proofs
end

section
/-! PROOFS. The terms of the statements, from what an instruction answers: pc moved on, a skip, a fault (10_state R26; 40_control_flow R100;
60_exceptions R221). -/

namespace Sys2Proof.Safety

open Sys2Proof.Machine

variable {s t : State} {i : Instr}

theorem advances_of_pc {n : Nat} (h : t.pc = s.pc + BitVec.ofNat 16 n) : Advances s t n := by
  intro hfit
  rw [h, BitVec.toNat_add, BitVec.toNat_ofNat]
  omega

theorem advances_advance (h : t.pc = s.pc) : Advances s t.advance 2 :=
  advances_of_pc (congrArg (· + 2) h)

theorem skips_skipIf {c : Bool} {cond : Prop} (h : c = true ↔ cond) : Skips s (s.skipIf c) cond := by
  refine ⟨fun hcond => advances_of_pc ?_, fun hcond => advances_of_pc ?_, (KeptBut.refl s _).skipIf c (by simp)⟩
  · exact if_pos (h.2 hcond)
  · exact if_neg (mt h.1 hcond)

theorem faultsWith_of_faultIn {c : FaultCause} {w : Word} {a : Option Nat} {b : Option Byte}
    (h : exec i s = faultIn i s c a b) (hw : Encodes w i) : FaultsWith i s c w a b := hw.1 ▸ h

end Sys2Proof.Safety
end

section
/-! PROOFS. What the control-flow instructions with more than one case answer, a case at a time (40_control_flow). -/

namespace Sys2Proof.Machine

open Sys2Proof.Safety

variable {s : State} {nnn : Addr12}

/-! ### SYS (R101) -/

theorem execSys_fault (h : s.params.sysPolicy = .fault) : execSys nnn s = faultIn (.sys nnn) s .illegalInstruction none none := by
  simp only [execSys, h]

theorem execSys_nop (h : s.params.sysPolicy = .nop) : execSys nnn s = .next s.advance := by
  simp only [execSys, h]

/-! ### RET and CALL (R102, R104) -/

theorem execRet_pops {k : Fin 16} (h : s.sp.val = k.val + 1) :
    execRet s = .next { s with sp := k.castSucc, pc := s.stack[k.val] } := by
  have hsp : s.sp = k.succ := Fin.ext h
  simp [execRet, hsp, Fin.castSucc, Fin.castAdd, Fin.castLE]

theorem execRet_underflows (h : s.sp.val = 0) : execRet s = faultIn .ret s .stackUnderflow none none :=
  dif_neg (by omega)

theorem execCall_pushes {k : Fin 16} (h : s.sp.val = k.val) :
    execCall nnn s = .next (State.jumpTo { s with stack := s.stack.set k.val (s.pc + 2), sp := k.succ } nnn) := by
  have hsp : s.sp = k.castSucc := Fin.ext h
  simp [execCall, hsp, Fin.succ]

theorem execCall_overflows (h : s.sp.val = 16) : execCall nnn s = faultIn (.call nnn) s .stackOverflow none none :=
  dif_neg (by omega)

/-! ### Jumps (R103, R109) -/

theorem State.jumpTo_pc_toNat (s : State) (nnn : Addr12) : (s.jumpTo nnn).pc.toNat = nnn.toNat :=
  BitVec.toNat_setWidth_of_le (by decide)

theorem jumpTarget_of_base {base : Nat} (h : JumpBaseIs s nnn base) : s.jumpTarget nnn = base + (s.getV 0).toNat := by
  obtain ⟨hindex, hnnn⟩ := h
  cases hb : s.params.jpV0Base with
  | index => simp only [State.jumpTarget, hb, hindex hb]
  | nnn => simp only [State.jumpTarget, hb, hnnn hb]

theorem execJpV0_jumps (h : s.jumpTarget nnn ≤ 0xFFFF) :
    execJpV0 nnn s = .next { s with pc := BitVec.ofNat 16 (s.jumpTarget nnn) } := if_pos h

theorem execJpV0_faults (h : 0xFFFF < s.jumpTarget nnn) :
    execJpV0 nnn s = faultIn (.jpV0 nnn) s .fetchOutOfBounds (some (s.jumpTarget nnn)) none := if_neg (Nat.not_le.2 h)

end Sys2Proof.Machine
end

section
/-! PROOFS. The obligations about control flow (40_control_flow). -/

namespace Sys2Proof.Proofs

open Sys2Proof.Machine Sys2Proof.Safety

/-- Settles O11: RET with `k + 1` entries in use goes to entry `k`, and with none it underflows. -/
theorem retPopsReturnAddress : Obligations.RetPopsReturnAddress := by
  intro s
  constructor
  · intro k hk
    exact ⟨_, execRet_pops hk, rfl, rfl, ((KeptBut.refl s _).withSp k.castSucc (by simp)).withPc _ (by simp)⟩
  · intro hempty
    exact faultsWith_of_faultIn (execRet_underflows hempty) (encodes_of_encode rfl rfl)

/-- Settles O13: CALL with `k` entries in use writes entry `k` alone, and with all sixteen in use it overflows. -/
theorem callPushesReturnAddress : Obligations.CallPushesReturnAddress := by
  intro nnn s
  constructor
  · intro k hk
    refine ⟨_, execCall_pushes hk, fun hfit => ?_, rfl, State.jumpTo_pc_toNat _ nnn, ?_⟩
    · rw [State.jumpTo_stack, Vector.getElem_set_self]
      exact advances_advance rfl hfit
    · exact (((KeptBut.refl s _).withStackEntry k _ (by simp)).withSp _ (by simp)).jumpTo nnn (by simp)
  · intro hfull
    exact faultsWith_of_faultIn (execCall_overflows hfull) encodes_wordA

/-- Settles O16: the target is base + V0 under either base, and it goes to pc exactly when it fits there. -/
theorem indexedJump : Obligations.IndexedJump := by
  intro nnn s base hbase
  rw [← jumpTarget_of_base hbase]
  constructor
  · intro hfits
    exact ⟨_, execJpV0_jumps hfits, Nat.mod_eq_of_lt (by omega), (KeptBut.refl s _).withPc _ (by simp)⟩
  · intro hexceeds
    exact faultsWith_of_faultIn (execJpV0_faults hexceeds) encodes_wordA

/-- Settles O10: one case a policy. -/
theorem sysFollowsPolicy : Obligations.SysFollowsPolicy := by
  intro nnn s hok
  constructor
  · intro hfault
    exact faultsWith_of_faultIn (execSys_fault hfault) (encodes_wordA (hi := hok))
  · intro hnop
    exact ⟨_, execSys_nop hnop, advances_advance rfl, (KeptBut.refl s _).advance (by simp)⟩

/-- Settles O12: widening nnn to 16 bits keeps its value. -/
theorem jumpSetsPc : Obligations.JumpSetsPc := by
  intro nnn s
  exact ⟨_, rfl, State.jumpTo_pc_toNat s nnn, (KeptBut.refl s _).jumpTo nnn (by simp)⟩

/-- Settles O14: both skip on a Boolean that is true exactly when the comparison holds. -/
theorem immediateSkips : Obligations.ImmediateSkips := by
  intro x nn s
  exact ⟨⟨_, rfl, skips_skipIf beq_iff_eq⟩, ⟨_, rfl, skips_skipIf bne_iff_ne⟩⟩

/-- Settles O15: both skip on a Boolean that is true exactly when the comparison holds. -/
theorem registerSkips : Obligations.RegisterSkips := by
  intro x y s
  exact ⟨⟨_, rfl, skips_skipIf beq_iff_eq⟩, ⟨_, rfl, skips_skipIf bne_iff_ne⟩⟩

end Sys2Proof.Proofs
end

section
/-! PROOFS. The flags, the byte results and the shift operand as the spec's arithmetic says them, and what the logic operations do to VF
under each setting (41_alu R130 to R141). -/

namespace Sys2Proof.Machine

open Sys2Proof.Safety

variable {s : State} {x y : Reg}

theorem carryOut_iff (a b : Byte) : carryOut a b = true ↔ 255 < a.toNat + b.toNat := decide_eq_true_iff

theorem notBorrow_iff (a b : Byte) : notBorrow a b = true ↔ b.toNat ≤ a.toNat := decide_eq_true_iff

/-- The bit a right shift loses is the remainder of the halving. -/
theorem shiftedOutRight_iff (src : Byte) : shiftedOutRight src = true ↔ src.toNat % 2 = 1 := by
  rw [shiftedOutRight, BitVec.getLsbD, Nat.testBit_zero, decide_eq_true_iff]

/-- The bit a left shift loses is the sign bit, which the upper half of the bytes has. -/
theorem shiftedOutLeft_iff (src : Byte) : shiftedOutLeft src = true ↔ 128 ≤ src.toNat := by
  have hmsb : shiftedOutLeft src = src.msb := (BitVec.msb_eq_getLsbD_last src).symm
  rw [hmsb, BitVec.msb_eq_decide, decide_eq_true_iff]

/-- A byte difference is the difference modulo 256, 256 added first so that a borrow stays a natural number. -/
theorem toNat_byte_sub (a b : Byte) : (a - b).toNat = (256 + a.toNat - b.toNat) % 256 := by
  rw [BitVec.toNat_sub]
  omega

theorem toNat_shiftRight_one (src : Byte) : (src >>> 1).toNat = src.toNat / 2 := by
  rw [BitVec.toNat_ushiftRight, Nat.shiftRight_eq_div_pow, Nat.pow_one]

theorem toNat_shiftLeft_one (src : Byte) : (src <<< 1).toNat = src.toNat * 2 % 256 := by
  rw [BitVec.toNat_shiftLeft, Nat.shiftLeft_eq, Nat.pow_one]

theorem shiftOperand_of_source {src : Byte} (h : ShiftSourceIs s x y src) : s.shiftOperand x y = src := by
  obtain ⟨hvx, hvy⟩ := h
  cases hsource : s.params.shiftSource with
  | vx => simp only [State.shiftOperand, hsource, hvx hsource]
  | vy => simp only [State.shiftOperand, hsource, hvy hsource]

theorem State.resetLogicFlag_off (h : s.params.vfResetLogic = false) : s.resetLogicFlag = s := by
  simp only [State.resetLogicFlag, h, Bool.false_eq_true, if_false]

theorem State.resetLogicFlag_on (h : s.params.vfResetLogic = true) : s.resetLogicFlag = s.setFlag false := if_pos h

end Sys2Proof.Machine
end

section
/-! PROOFS. The three shapes of a register operation: a value in Vx, a result with its flag, a logic result (41_alu R130 to R134). -/

namespace Sys2Proof.Safety

open Sys2Proof.Machine

variable {s : State} {x : Reg}

theorem keptButThese_setV_advance (b : Byte) : KeptButThese s (s.setV x b).advance [.reg x, .pc] :=
  ((KeptBut.refl s _).setV b (by simp)).advance (by simp)

theorem keptButThese_setResultFlag_advance (r : Byte) (b : Bool) :
    KeptButThese s (s.setResultFlag x r b).advance [.reg x, .reg regF, .pc] :=
  ((KeptBut.refl s _).setResultFlag r b (by simp) (by simp)).advance (by simp)

/-- Outside VF the result is what a register holds after the flag. -/
theorem getV_setResultFlag_result (hx : x ≠ regF) (r : Byte) (b : Bool) : (s.setResultFlag x r b).getV x = r := by
  rw [State.getV_setResultFlag, if_neg hx, if_pos rfl]

theorem resultThenFlag_setResultFlag {r : Byte} {b : Bool} {result : Nat} {flag : Prop} (hr : r.toNat = result)
    (hb : b = true ↔ flag) : ResultThenFlag s (s.setResultFlag x r b).advance x result flag := by
  refine ⟨fun hx => ?_, fun hflag => ?_, fun hflag => ?_, advances_advance rfl, keptButThese_setResultFlag_advance r b⟩
  · rw [State.advance_getV, getV_setResultFlag_result hx, hr]
  · rw [State.advance_getV, State.getV_setResultFlag_flag, hb.2 hflag]
    rfl
  · rw [State.advance_getV, State.getV_setResultFlag_flag, Bool.eq_false_iff.2 (mt hb.1 hflag)]
    rfl

/-- Under `VF_RESET_LOGIC` a logic operation is a result whose flag is always 0; otherwise it is a register write. -/
theorem logicResult_resetLogicFlag (r : Byte) : LogicResult s (s.setV x r).resetLogicFlag.advance x r := by
  refine ⟨fun hoff => ?_, fun hon => ?_, advances_advance (State.resetLogicFlag_pc _)⟩
  · rw [State.resetLogicFlag_off (s := s.setV x r) hoff]
    exact ⟨State.getV_setV_same s x r, keptButThese_setV_advance r⟩
  · rw [State.resetLogicFlag_on (s := s.setV x r) hon]
    exact ⟨fun hx => getV_setResultFlag_result hx r false, State.getV_setResultFlag_flag s x r false,
      keptButThese_setResultFlag_advance r false⟩

end Sys2Proof.Safety
end

section
/-! PROOFS. The obligations about register arithmetic, logic, shifts and random (41_alu). -/

namespace Sys2Proof.Proofs

open Sys2Proof.Machine Sys2Proof.Safety

/-- Settles O20: all three write their result and then treat VF alike. -/
theorem logicOperations : Obligations.LogicOperations := by
  intro x y s
  exact ⟨⟨_, rfl, logicResult_resetLogicFlag _⟩, ⟨_, rfl, logicResult_resetLogicFlag _⟩,
    ⟨_, rfl, logicResult_resetLogicFlag _⟩⟩

/-- Settles O21: a byte sum is the sum modulo 256, and the flag is its carry. -/
theorem addSetsCarry : Obligations.AddSetsCarry := by
  intro x y s
  exact ⟨_, rfl, resultThenFlag_setResultFlag (BitVec.toNat_add _ _) (carryOut_iff _ _)⟩

/-- Settles O22: a byte difference, and the flag that no borrow was needed. -/
theorem subSetsNotBorrow : Obligations.SubSetsNotBorrow := by
  intro x y s
  exact ⟨_, rfl, resultThenFlag_setResultFlag (toNat_byte_sub _ _) (notBorrow_iff _ _)⟩

/-- Settles O23: as O22, the operands exchanged. -/
theorem subnSetsNotBorrow : Obligations.SubnSetsNotBorrow := by
  intro x y s
  exact ⟨_, rfl, resultThenFlag_setResultFlag (toNat_byte_sub _ _) (notBorrow_iff _ _)⟩

/-- Settles O24: the shift operand is the source under either setting, a shift right halves it and a shift left doubles it. -/
theorem shiftsSetShiftedOutBit : Obligations.ShiftsSetShiftedOutBit := by
  intro x y s src hsource
  rw [← shiftOperand_of_source hsource]
  constructor
  · exact ⟨_, rfl, resultThenFlag_setResultFlag (toNat_shiftRight_one _) (shiftedOutRight_iff _)⟩
  · exact ⟨_, rfl, resultThenFlag_setResultFlag (toNat_shiftLeft_one _) (shiftedOutLeft_iff _)⟩

/-- Settles O17: one register write. -/
theorem loadImmediate : Obligations.LoadImmediate := by
  intro x nn s
  exact ⟨_, rfl, State.getV_setV_same s x nn, advances_advance rfl, keptButThese_setV_advance nn⟩

/-- Settles O18: one register write, of a byte sum. -/
theorem addImmediateWraps : Obligations.AddImmediateWraps := by
  intro x nn s
  refine ⟨_, rfl, ?_, advances_advance rfl, keptButThese_setV_advance _⟩
  rw [State.advance_getV, State.getV_setV_same, BitVec.toNat_add]

/-- Settles O19: one register write, of the old Vy. -/
theorem registerMove : Obligations.RegisterMove := by
  intro x y s
  exact ⟨_, rfl, State.getV_setV_same s x _, advances_advance rfl, keptButThese_setV_advance _⟩

/-- Settles O25: one register write, of a draw whose bits outside the mask are cleared. -/
theorem randomByteIsMasked : Obligations.RandomByteIsMasked := by
  intro x nn s
  have hdraw : (s.countDraw.setV x (s.drawnByte &&& nn)).advance.getV x = Config.freeByte s.draws &&& nn :=
    State.getV_setV_same s.countDraw x _
  refine ⟨_, rfl, hdraw, ?_, rfl, advances_advance rfl, ?_⟩
  · rw [hdraw, BitVec.and_assoc, BitVec.and_not_self]
    exact BitVec.and_zero
  · exact (((KeptBut.refl s _).countDraw (by simp)).setV _ (by simp)).advance (by simp)

end Sys2Proof.Proofs
end

section
/-! PROOFS. What the index and memory operations give, a case at a time (42_index_memory R160 to R166). -/

namespace Sys2Proof.Machine

open Sys2Proof.Safety

variable {s t : State} {i : Instr} {n : Nat} {v : Byte}

/-! ### Access checks from I (R160) -/

theorem guardRange_of_readable (h : Readable s n) : guardRange i .read s.dataAddr n s t = .next t :=
  guardRange_pass ((checkRange_read_none _ _ _).2 (.inr h))

theorem guardRange_of_writable (hn : 0 < n) (h : Writable s n) : guardRange i .write s.dataAddr n s t = .next t :=
  guardRange_pass ((checkRange_write_none _ _ _ hn).2 h)

/-! ### The font digit (R163) -/

theorem State.fontDigit_lowNibble (h : v.toNat < 16 ∨ s.params.fontDigitPolicy = .mask) :
    s.fontDigit v = some ⟨v.toNat % 16, Nat.mod_lt _ (by decide)⟩ := by
  rcases h with hsmall | hmask
  · simp only [State.fontDigit, inSixteen_small _ hsmall, Nat.mod_eq_of_lt hsmall]
  · rw [State.fontDigit, hmask, inSixteen_mask]

theorem State.fontDigit_none (hlarge : 16 ≤ v.toNat) (hfault : s.params.fontDigitPolicy = .fault) : s.fontDigit v = none := by
  rw [State.fontDigit, hfault, inSixteen_fault hlarge]

/-- The last glyph ends far below 0x10000, so no glyph's address wraps. -/
theorem State.glyphAddr_toNat (s : State) (d : Fin 16) : (s.glyphAddr d).toNat = s.params.fontBase.val + 5 * d.val :=
  Nat.mod_eq_of_lt (by omega)

theorem execLdF_points {x : Reg} {d : Fin 16} (h : s.fontDigit (s.getV x) = some d) :
    execLdF x s = .next (State.advance { s with i := s.glyphAddr d }) := by
  simp only [execLdF, h]

theorem execLdF_faults {x : Reg} (h : s.fontDigit (s.getV x) = none) :
    execLdF x s = faultIn (.ldF x) s .fontDigitOutOfRange none (some (s.getV x)) := by
  simp only [execLdF, h]

/-! ### The bytes a store leaves (R164, R165) -/

/-- Each decimal digit of a byte is itself a byte. -/
theorem bcdDigits_toNat (v : Byte) : (bcdDigits v).map BitVec.toNat = [v.toNat / 100, v.toNat / 10 % 10, v.toNat % 10] := by
  have hv := v.isLt
  simp only [bcdDigits, List.map_cons, List.map_nil, BitVec.toNat_ofNat, List.cons.injEq, and_true]
  omega

theorem State.readByte_writeBytes_bcdDigits (s : State) (a : Nat) (v : Byte) (k : Fin 3) :
    ((s.writeBytes a (bcdDigits v)).readByte (a + k.val)).toNat = [v.toNat / 100, v.toNat / 10 % 10, v.toNat % 10][k.val] := by
  rw [State.readByte_writeBytes s a (bcdDigits v) k.val k.isLt]
  simp only [← bcdDigits_toNat, List.getElem_map]
  rfl

theorem State.readByte_writeBytes_regsUpTo (s : State) (a : Nat) {x k : Reg} (hk : k ≤ x) :
    (s.writeBytes a (s.regsUpTo x)).readByte (a + k.val) = s.getV k := by
  have hlen : k.val < (s.regsUpTo x).length := by
    rw [State.length_regsUpTo]
    exact Nat.lt_succ_of_le hk
  rw [State.readByte_writeBytes s a _ _ hlen, State.getElem_regsUpTo]

end Sys2Proof.Machine
end

section
/-! PROOFS. The terms of the statements about I and memory, from what an instruction answers (42_index_memory). -/

namespace Sys2Proof.Safety

open Sys2Proof.Machine

variable {s t : State} {i : Instr} {n : Nat} {w : Word}

theorem keptButThese_withIndex_advance (s : State) (a : Word) :
    KeptButThese s (State.advance { s with i := a }) [.index, .pc] :=
  ((KeptBut.refl s _).withIndex a (by simp)).advance (by simp)

/-- Whatever else the transfer wrote, I moves from where it was before, under the same parameters (R165, R166). -/
theorem indexAfter_advanceIndex (hparams : t.params = s.params) (hi : t.i = s.i) (x : Reg) :
    IndexAfter s (t.advanceIndex x).advance x := by
  refine ⟨fun hstay => ?_, fun hmove => ?_⟩
  · rw [State.advance_i, State.advanceIndex_i, hparams, hstay, hi]
    rfl
  · rw [State.advance_i, State.advanceIndex_i, hparams, if_pos hmove, hi, BitVec.toNat_add, BitVec.toNat_ofNat]
    omega

/-- A store of V0 to Vx changes one byte for each of those registers (R165). -/
theorem KeptBut.writeRegsUpTo {P : Part → Prop} (h : KeptBut s t P) (a : Nat) (x : Reg)
    (hp : ∀ k : Reg, k ≤ x → P (.byte (a + k.val))) : KeptBut s (t.writeBytes a (s.regsUpTo x)) P := by
  refine h.writeBytes _ fun k hk => ?_
  rw [State.length_regsUpTo] at hk
  have hkx : k ≤ x.val := Nat.le_of_lt_succ hk
  exact hp ⟨k, by omega⟩ hkx

/-! ### Stores that may not be made (R160) -/

/-- `FX33` and `FX55` are nothing but a store of at least one byte behind the write check. -/
theorem store_guarded {x : Reg} (s : State) (h : (i = .ldB x ∧ n = 3 ∧ w = wordXB 0xF x 0x33) ∨
      (i = .ldStore x ∧ n = x.val + 1 ∧ w = wordXB 0xF x 0x55)) :
    0 < n ∧ Encodes w i ∧ ∃ t, exec i s = guardRange i .write s.dataAddr n s t := by
  obtain ⟨rfl, rfl, rfl⟩ | ⟨rfl, rfl, rfl⟩ := h
  · exact ⟨by decide, encodes_wordXB, _, rfl⟩
  · exact ⟨x.val.succ_pos, encodes_wordXB, _, rfl⟩

theorem faultsWith_of_checkRange {k : Access} {a bad : Nat} {c : FaultCause} (hexec : exec i s = guardRange i k a n s t)
    (hcheck : checkRange s.params k a n = some (c, bad)) (hw : Encodes w i) : FaultsWith i s c w (some bad) none :=
  faultsWith_of_faultIn (hexec.trans (guardRange_fail hcheck)) hw

end Sys2Proof.Safety
end

section
/-! PROOFS. The obligations about the index register and memory transfer (42_index_memory). -/

namespace Sys2Proof.Proofs

open Sys2Proof.Machine Sys2Proof.Safety

/-- Settles O28: a digit, one that fits or is masked, gives its glyph's address, and no digit is a fault. -/
theorem fontGlyphAddress : Obligations.FontGlyphAddress := by
  intro x s
  constructor
  · intro hdigit
    exact ⟨_, execLdF_points (State.fontDigit_lowNibble hdigit), State.glyphAddr_toNat s _, advances_advance rfl,
      keptButThese_withIndex_advance s _⟩
  · rintro ⟨hlarge, hfault⟩
    exact faultsWith_of_faultIn (execLdF_faults (State.fontDigit_none hlarge hfault)) encodes_wordXB

/-- Settles O29: the check passes, and the three bytes written read as the three digits. -/
theorem bcdStore : Obligations.BcdStore := by
  intro x s hwritable
  have hdigit := State.readByte_writeBytes_bcdDigits s s.dataAddr (s.getV x)
  refine ⟨_, guardRange_of_writable (by decide) hwritable, hdigit 0, hdigit 1, hdigit 2,
    advances_advance (State.writeBytes_pc s _ _), ?_⟩
  refine ((KeptBut.refl s _).writeBytes _ fun k hk => ?_).advance (by simp)
  rw [length_bcdDigits] at hk
  interval_cases k <;> simp [State.dataAddr]

/-- Settles O30: the check passes, and byte `k` of those written is `Vk`. -/
theorem storeRegisters : Obligations.StoreRegisters := by
  intro x s hwritable
  refine ⟨_, guardRange_of_writable x.val.succ_pos hwritable, fun k hk => ?_, ?_, advances_advance ?_, ?_⟩
  · rw [State.advance_readByte, State.advanceIndex_readByte]
    exact State.readByte_writeBytes_regsUpTo s s.dataAddr hk
  · exact indexAfter_advanceIndex (State.writeBytes_params s _ _) (State.writeBytes_i s _ _) x
  · rw [State.advanceIndex_pc, State.writeBytes_pc]
  · exact (((KeptBut.refl s _).writeRegsUpTo s.dataAddr x fun k hk => .inr (.inr ⟨k, hk, rfl⟩)).advanceIndex x
      fun _ => .inr (.inl rfl)).advance (.inl rfl)

/-- Settles O31: the read check passes exactly inside memory, and a register up to `x` is then the byte at its place. -/
theorem loadRegisters : Obligations.LoadRegisters := by
  intro x s
  constructor
  · intro hreadable
    refine ⟨_, guardRange_of_readable hreadable, fun k hk => ?_, ?_, advances_advance ?_, ?_⟩
    · rw [State.advance_getV, State.advanceIndex_getV, State.getV_loadRegs, if_pos hk]
      rfl
    · exact indexAfter_advanceIndex (State.loadRegs_params s _ _) (State.loadRegs_i s _ _) x
    · rw [State.advanceIndex_pc, State.loadRegs_pc]
    · exact (((KeptBut.refl s _).loadRegs s.dataAddr fun k hk => .inr (.inr ⟨k, hk, rfl⟩)).advanceIndex x
        fun _ => .inr (.inl rfl)).advance (.inl rfl)
  · intro houtside
    exact faultsWith_of_checkRange rfl (checkRange_read_some _ x.val.succ_pos (Nat.not_le.1 houtside)) encodes_wordXB

/-- Settles O32: both stores pass the write check or fault, and a failing check names its lowest bad address. -/
theorem storesFaultAtFirstBadAddress : Obligations.StoresFaultAtFirstBadAddress := by
  intro x s i n w hstore
  obtain ⟨hn, hw, t, hexec⟩ := store_guarded s hstore
  constructor
  · rintro ⟨hprotect, hlow⟩
    exact faultsWith_of_checkRange hexec (checkRange_write_protected hn hprotect hlow) hw
  · rintro ⟨habove, houtside⟩
    exact faultsWith_of_checkRange hexec (checkRange_write_outside hn habove houtside) hw

/-- Settles O26: widening nnn to 16 bits keeps its value. -/
theorem loadIndex : Obligations.LoadIndex := by
  intro nnn s
  exact ⟨_, rfl, BitVec.toNat_setWidth_of_le (by decide), advances_advance rfl, keptButThese_withIndex_advance s _⟩

/-- Settles O27: a sum of 16-bit words is the sum modulo 65536, and widening Vx keeps its value. -/
theorem addToIndexWraps : Obligations.AddToIndexWraps := by
  intro x s
  refine ⟨_, rfl, ?_, advances_advance rfl, keptButThese_withIndex_advance s _⟩
  rw [State.advance_i, BitVec.toNat_add, BitVec.toNat_setWidth_of_le (by decide)]

end Sys2Proof.Proofs
end

section
/-! PROOFS. What a draw gives, in the terms of the sprite's footprint: its pixels, its collision and its registers (43_display R180, R182). -/

namespace Sys2Proof.Machine

open Sys2Proof.Safety

variable {s t : State} {x y : Reg} {n : Nibble} {row : Fin 32} {col : Fin 64}

/-! ### The footprint (R180) -/

/-- The footprint the blit works by is the one the statements speak of. -/
theorem spriteCovers_readBytes_iff :
    spriteCovers (s.getV x).toNat (s.getV y).toNat (s.readBytes s.dataAddr n.toNat) row col = true ↔
      SpriteCovers s x y n row col := by
  rw [spriteCovers_iff]
  simp only [State.length_readBytes, State.getElem_readBytes, wrapRow, wrapCol, Fin.ext_iff, exists_prop]
  rfl

/-- A footprint depends on I, the two coordinates and memory alone. -/
theorem spriteCovers_congr (hi : t.i = s.i) (hx : t.getV x = s.getV x) (hy : t.getV y = s.getV y)
    (hmem : ∀ a, t.readByte a = s.readByte a) : SpriteCovers t x y n row col ↔ SpriteCovers s x y n row col := by
  simp only [SpriteCovers, hi, hx, hy, hmem]

/-! ### The display and the collision (R182) -/

/-- A sprite has at most 15 rows, so none of them falls on another. -/
theorem length_spriteBytes_le (s : State) (n : Nibble) : (s.readBytes s.dataAddr n.toNat).length ≤ 32 := by
  rw [State.length_readBytes]
  omega

theorem drawn_pixel_covered (h : SpriteCovers s x y n row col) : pixelAt (s.drawn x y n).disp row col = !s.pixel row col := by
  rw [State.drawn, pixelAt_blitSprite _ _ _ (length_spriteBytes_le s n), spriteCovers_readBytes_iff.2 h, Bool.xor_true]
  rfl

theorem drawn_pixel_uncovered (h : ¬ SpriteCovers s x y n row col) :
    pixelAt (s.drawn x y n).disp row col = s.pixel row col := by
  rw [State.drawn, pixelAt_blitSprite _ _ _ (length_spriteBytes_le s n),
    Bool.eq_false_iff.2 (mt spriteCovers_readBytes_iff.1 h), Bool.xor_false]
  rfl

theorem drawn_collided_iff :
    (s.drawn x y n).collided = true ↔ ∃ row col, SpriteCovers s x y n row col ∧ s.pixel row col = true := by
  rw [State.drawn, collided_blitSprite _ _ _ (length_spriteBytes_le s n)]
  simp only [Bool.false_eq_true, false_or, spriteCovers_readBytes_iff]
  rfl

/-! ### The state after a draw (R182) -/

/-- The effect of a `DXYN` whose check passes. -/
def State.afterDraw (s : State) (x y : Reg) (n : Nibble) : State :=
  State.advance (State.setFlag { s with disp := (s.drawn x y n).disp } (s.drawn x y n).collided)

/-- A sprite of no rows reads nothing, and any other draws where its bytes are inside memory. -/
theorem exec_drw_completes (h : n = 0 ∨ Readable s n.toNat) : exec (.drw x y n) s = .next (s.afterDraw x y n) := by
  refine guardRange_pass ((checkRange_read_none _ _ _).2 (h.imp_left fun h0 => ?_))
  rw [h0]
  rfl

theorem afterDraw_getV_flag : (s.afterDraw x y n).getV regF = flagByte (s.drawn x y n).collided :=
  State.getV_setV_same _ regF _

theorem flagByte_eq_one_iff (b : Bool) : flagByte b = 1 ↔ b = true := by
  cases b <;> decide

theorem afterDraw_flag_iff :
    (s.afterDraw x y n).getV regF = 1 ↔ ∃ row col, SpriteCovers s x y n row col ∧ s.pixel row col = true := by
  rw [afterDraw_getV_flag, flagByte_eq_one_iff, drawn_collided_iff]

theorem afterDraw_flag_clear (h : ¬ ∃ row col, SpriteCovers s x y n row col ∧ s.pixel row col = true) :
    (s.afterDraw x y n).getV regF = 0 := by
  rw [afterDraw_getV_flag, Bool.eq_false_iff.2 (mt drawn_collided_iff.1 h)]
  rfl

end Sys2Proof.Machine
end

section
/-! PROOFS. The frame of a draw, and what is left of it for a second draw (43_display R182, R183). -/

namespace Sys2Proof.Safety

open Sys2Proof.Machine

variable {s t : State} {x y : Reg} {n : Nibble} {row : Fin 32} {col : Fin 64}

/-- The display all at once, the pixels outside `P` as they were. -/
theorem KeptBut.withPixels {P : Part → Prop} (h : KeptBut s t P) (d : Display)
    (hd : ∀ row col, ¬ P (.pixel row col) → pixelAt d row col = t.pixel row col) : KeptBut s { t with disp := d } P :=
  h.trans fun p hn => by
    cases p with
    | pixel row col => exact hd row col hn
    | _ => rfl

/-- The parts a draw may change (R182). -/
def drawWrites (s : State) (x y : Reg) (n : Nibble) (p : Part) : Prop :=
  p = .pc ∨ p = .reg regF ∨ ∃ row col, p = .pixel row col ∧ SpriteCovers s x y n row col

theorem keptBut_afterDraw (s : State) (x y : Reg) (n : Nibble) : KeptBut s (s.afterDraw x y n) (drawWrites s x y n) :=
  (((KeptBut.refl s _).withPixels _ fun row col hn =>
    drawn_pixel_uncovered fun hc => hn (.inr (.inr ⟨row, col, rfl, hc⟩))).setFlag _ (.inr (.inl rfl))).advance (.inl rfl)

/-- The first draw writes neither I nor memory, and of the registers VF alone, so the second draw finds the same sprite at the same
place. -/
theorem spriteCovers_afterDraw (hx : x ≠ regF) (hy : y ≠ regF) :
    SpriteCovers (s.afterDraw x y n) x y n row col ↔ SpriteCovers s x y n row col := by
  have hkept := keptBut_afterDraw s x y n
  exact spriteCovers_congr rfl (hkept (.reg x) (by simp [drawWrites, hx])) (hkept (.reg y) (by simp [drawWrites, hy]))
    fun a => hkept (.byte a) (by simp [drawWrites])

/-- XOR is self-inverse (R183 (a)): a covered pixel is flipped twice, any other never. -/
theorem afterDraw_twice_pixel (hx : x ≠ regF) (hy : y ≠ regF) :
    ((s.afterDraw x y n).afterDraw x y n).pixel row col = s.pixel row col := by
  by_cases hc : SpriteCovers s x y n row col
  · calc ((s.afterDraw x y n).afterDraw x y n).pixel row col
        = !(s.afterDraw x y n).pixel row col := drawn_pixel_covered ((spriteCovers_afterDraw hx hy).2 hc)
      _ = !!s.pixel row col := congrArg (!·) (drawn_pixel_covered hc)
      _ = s.pixel row col := Bool.not_not _
  · exact (drawn_pixel_uncovered (mt (spriteCovers_afterDraw hx hy).1 hc)).trans (drawn_pixel_uncovered hc)

/-- A covered pixel is on before the second draw exactly where it was off before the first. -/
theorem afterDraw_twice_flag_iff (hx : x ≠ regF) (hy : y ≠ regF) :
    ((s.afterDraw x y n).afterDraw x y n).getV regF = 1 ↔
      ∃ row col, SpriteCovers s x y n row col ∧ s.pixel row col = false := by
  rw [afterDraw_flag_iff]
  refine exists_congr fun row => exists_congr fun col => ?_
  rw [spriteCovers_afterDraw hx hy]
  refine and_congr_right fun hc => ?_
  have hflip : (s.afterDraw x y n).pixel row col = !s.pixel row col := drawn_pixel_covered hc
  rw [hflip, Bool.not_eq_true']

end Sys2Proof.Safety
end

section
/-! PROOFS. The obligations about the display (43_display). -/

namespace Sys2Proof.Proofs

open Sys2Proof.Machine Sys2Proof.Safety

/-- Settles O34: the check passes, and the blit flips the footprint and tells whether it held a pixel that was on. -/
theorem drawFlipsCoveredPixels : Obligations.DrawFlipsCoveredPixels := by
  intro x y n s hinside
  exact ⟨_, exec_drw_completes hinside, fun _ _ => drawn_pixel_covered, afterDraw_flag_iff.2, afterDraw_flag_clear,
    advances_advance rfl, keptBut_afterDraw s x y n⟩

/-- Settles O35: the read check fails at the first address outside memory, before the draw. -/
theorem drawOutsideMemoryFaults : Obligations.DrawOutsideMemoryFaults := by
  intro x y n s hn houtside
  have hrows : 0 < n.toNat := Nat.pos_of_ne_zero fun h0 => hn (BitVec.eq_of_toNat_eq h0)
  exact faultsWith_of_checkRange rfl (checkRange_read_some _ hrows (Nat.not_le.1 houtside)) encodes_wordXYN

/-- Settles O36: the second draw finds the same sprite at the same place, over the pixels the first one flipped. -/
theorem drawTwiceRestores : Obligations.DrawTwiceRestores := by
  intro x y n s hx hy hinside
  exact ⟨_, _, exec_drw_completes hinside, exec_drw_completes hinside, fun _ _ => afterDraw_twice_pixel hx hy,
    afterDraw_twice_flag_iff hx hy⟩

/-- Refutes O37: a sprite of one set bit on a pixel that is on. The first draw turns it off, and the second turns it on and leaves
VF 0. -/
theorem not_secondDrawCollidesIffSetBit : ¬ Obligations.SecondDrawCollidesIffSetBit := by
  intro h
  have hflag := h 0 1 1
    (State.writeByte { State.reset with i := 0x300, disp := flipPixel State.reset.disp 0 0 } 0x300 0x80) _ _
    (by decide) (by decide) (.inr (by decide)) rfl rfl
  exact absurd (hflag.2 ⟨0, 0, 0, 0, by decide⟩) (by decide)

/-- Settles O33: every pixel of the blank display is off, and VF is not among what is written. -/
theorem clearScreen : Obligations.ClearScreen := by
  intro s
  refine ⟨_, rfl, pixelAt_blank, advances_advance rfl, ?_⟩
  exact ((KeptBut.refl s _).withDisp _ fun row col => .inr ⟨row, col, rfl⟩).advance (.inl rfl)

end Sys2Proof.Proofs
end

section
/-! PROOFS. What the keypad instructions and the wait check answer, a case at a time (44_keypad_timers R200 to R207). -/

namespace Sys2Proof.Machine

open Sys2Proof.Safety

variable {s : State} {v : Byte} {x : Reg} {k : Key}

/-! ### The key a value names (R200) -/

theorem State.keyIndex_lowNibble (hk : k.val = v.toNat % 16) (h : v.toNat < 16 ∨ s.params.keyIndexPolicy = .mask) :
    s.keyIndex v = some k := by
  have hkey : k = ⟨v.toNat % 16, Nat.mod_lt _ (by decide)⟩ := Fin.ext hk
  rcases h with hsmall | hmask
  · simp only [State.keyIndex, inSixteen_small _ hsmall, hkey, Nat.mod_eq_of_lt hsmall]
  · rw [State.keyIndex, hmask, inSixteen_mask, hkey]

theorem State.keyIndex_none (hlarge : 16 ≤ v.toNat) (hfault : s.params.keyIndexPolicy = .fault) : s.keyIndex v = none := by
  rw [State.keyIndex, hfault, inSixteen_fault hlarge]

/-! ### SKP and SKNP (R201, R202) -/

theorem execSkp_skips (h : s.keyIndex (s.getV x) = some k) : execSkp x s = .next (s.skipIf (s.keyDown k)) := by
  simp only [execSkp, h]

theorem execSkp_faults (h : s.keyIndex (s.getV x) = none) :
    execSkp x s = faultIn (.skp x) s .keyIndexOutOfRange none (some (s.getV x)) := by
  simp only [execSkp, h]

theorem execSknp_skips (h : s.keyIndex (s.getV x) = some k) : execSknp x s = .next (s.skipIf (!s.keyDown k)) := by
  simp only [execSknp, h]

theorem execSknp_faults (h : s.keyIndex (s.getV x) = none) :
    execSknp x s = faultIn (.sknp x) s .keyIndexOutOfRange none (some (s.getV x)) := by
  simp only [execSknp, h]

/-! ### The latched keys (R38) -/

theorem State.latchKeys_level (h : s.params.keyWaitTrigger = .level) : s.latchKeys = s := by
  simp only [State.latchKeys, h]

theorem latched_latchKeys (s : State) : Latched s s.latchKeys :=
  ⟨fun hlevel => by rw [State.latchKeys_level hlevel], fun hedge => by simp only [State.latchKeys, hedge]⟩

/-! ### The wait (R207) -/

/-- The model's P is the one the statements speak of. -/
theorem keyEndsWait_iff (s : State) (k : Key) : s.keyEndsWait k = true ↔ EndsWait s k := by
  cases h : s.params.keyWaitTrigger <;> simp [State.keyEndsWait, EndsWait, h]

theorem step_of_awaiting (h : s.mode = .awaitingKey x) : step s = waitCheck x s := by
  simp only [step, h]

theorem waitCheck_latches (x : Reg) (h : ∀ k, ¬ EndsWait s k) : waitCheck x s = .next s.latchKeys := by
  rcases waitCheck_cases x s with ⟨-, hwait⟩ | ⟨k, hk, -⟩
  · exact hwait
  · exact absurd ((keyEndsWait_iff s k).1 hk) (h k)

theorem waitCheck_ends (x : Reg) (h : ∃ k, EndsWait s k) :
    ∃ k, EndsWait s k ∧ waitCheck x s = .next (s.latchKeys.endWait x k) := by
  rcases waitCheck_cases x s with ⟨hnone, -⟩ | ⟨k, hk, hwait⟩
  · obtain ⟨k, hk⟩ := h
    exact absurd ((keyEndsWait_iff s k).2 hk) (Bool.eq_false_iff.1 (hnone k))
  · exact ⟨k, (keyEndsWait_iff s k).1 hk, hwait⟩

/-- A key's number fits a byte. -/
theorem State.endWait_getV_toNat (s : State) (x : Reg) (k : Key) : ((s.endWait x k).getV x).toNat = k.val := by
  rw [State.endWait, State.advance_getV, State.getV_setV_same]
  exact Nat.mod_eq_of_lt (by omega)

end Sys2Proof.Machine
end

section
/-! PROOFS. The machine's invariant, one rule per state operation that touches what it speaks of, and that an instruction and a wait check
keep it (20_memory R50; 40_control_flow R104; 44_keypad_timers R204, R207; 60_exceptions R223). -/

namespace Sys2Proof.Safety

open Sys2Proof.Machine

variable {s t : State} {x : Reg}

/-! ### The state's operations -/

/-- The fields `Inv` reads, but for pc. -/
def invFields (s : State) : Params × Memory × Fin 17 × Vector Word 16 × Mode := (s.params, s.mem, s.sp, s.stack, s.mode)

/-- `Inv` depends on `invFields` and on pc alone, and while the core runs not on pc either. -/
theorem Inv.congr (h : Inv s) (hfields : invFields t = invFields s) (hpc : s.mode = .running ∨ t.pc = s.pc) : Inv t := by
  simp only [invFields, Prod.mk.injEq] at hfields
  obtain ⟨hparams, hmem, hsp, hstack, hmode⟩ := hfields
  have hmemory : Memory.wf t.params t.mem = true := by
    rw [hparams, hmem]
    exact h.memory
  have hreturns : ∀ k : Fin 16, k.val < t.sp.val → (t.stack[k.val]).toNat ≤ 0x1000 := by
    simpa only [hsp, hstack] using h.returns
  rcases hpc with hrun | hpc
  · have hrun' : t.mode = .running := hmode.trans hrun
    exact ⟨hmemory, by simp [hrun'], by simp [hrun'], hreturns⟩
  · refine ⟨hmemory, ?_, ?_, hreturns⟩
    · simpa only [hmode, hpc] using h.waiting
    · simpa only [hmode, hpc] using h.faultAt

/-- A recorded fault names the address pc holds (R223). -/
theorem Inv.raise (h : Inv s) (c : FaultCause) (o : Option Word) (a : Option Nat) (b : Option Byte) : Inv (s.raise c o a b) :=
  ⟨h.memory, nofun, fun _ hf => by cases hf; rfl, h.returns⟩

/-- A wait begins at an address from which an instruction was fetched (R204). -/
theorem Inv.awaits (h : Inv s) (hpc : s.pc.toNat + 1 < memSize) : Inv { s with mode := .awaitingKey x } :=
  ⟨h.memory, fun _ _ => hpc, nofun, h.returns⟩

theorem Inv.resumes (h : Inv s) : Inv { s with mode := .running } := ⟨h.memory, nofun, nofun, h.returns⟩

theorem Inv.latchKeys (h : Inv s) : Inv s.latchKeys := h.congr (by simp [invFields]) (.inr (by simp))

/-- Bytes written inside memory keep its canonical form (R50). -/
theorem Inv.writeBytes (h : Inv s) {a : Nat} (bs : List Byte) (ha : a + bs.length ≤ memSize) : Inv (s.writeBytes a bs) := by
  refine ⟨?_, ?_, ?_, ?_⟩
  · simpa only [State.writeBytes_params] using State.wf_writeBytes bs ha h.memory
  · simpa using h.waiting
  · simpa using h.faultAt
  · simpa using h.returns

/-- Entries given up leave those still in use as they were. -/
theorem Inv.withSp (h : Inv s) {n : Fin 17} (hn : n ≤ s.sp) : Inv { s with sp := n } :=
  ⟨h.memory, h.waiting, h.faultAt, fun k hk => h.returns k (Nat.lt_of_lt_of_le hk hn)⟩

/-- A pushed entry is the only new one in use (R104). -/
theorem Inv.push (h : Inv s) {k : Fin 16} (hsp : s.sp.val = k.val) {w : Word} (hw : w.toNat ≤ 0x1000) :
    Inv { s with stack := s.stack.set k.val w, sp := k.succ } := by
  refine ⟨h.memory, h.waiting, h.faultAt, fun j hj => ?_⟩
  by_cases hjk : k.val = j.val
  · simpa [← hjk] using hw
  · have hused : j.val < s.sp.val := by
      rw [Fin.val_succ] at hj
      omega
    simpa [Vector.getElem_set_ne k.isLt j.isLt hjk] using h.returns j hused

/-! ### Results -/

/-- Every next state the result answers has the invariant. -/
def ResultHasInv (r : Result) : Prop := ∀ t, r = .next t → Inv t

theorem Inv.next (h : Inv t) : ResultHasInv (.next t) := by
  rintro _ ⟨⟩
  exact h

theorem Inv.next_congr (h : Inv s) (hfields : invFields t = invFields s) (hpc : s.mode = .running ∨ t.pc = s.pc) :
    ResultHasInv (.next t) := (h.congr hfields hpc).next

theorem Inv.faultIn (h : Inv s) (i : Instr) (c : FaultCause) (a : Option Nat) (b : Option Byte) :
    ResultHasInv (faultIn i s c a b) := (h.raise _ _ _ _).next

/-- An access is its effect under the passed check, or a fault. -/
theorem Inv.guardRange (h : Inv s) (i : Instr) (k : Access) (a n : Nat) (ht : checkRange s.params k a n = none → Inv t) :
    ResultHasInv (guardRange i k a n s t) := by
  intro u hu
  rcases guardRange_cases hu with ⟨hpass, rfl⟩ | ⟨c, bad, -, rfl⟩
  · exact ht hpass
  · exact h.raise _ _ _ _

/-- A store whose check passed writes inside memory. -/
theorem Inv.guardedStore (h : Inv s) (i : Instr) {bs : List Byte} {n : Nat} (hn : 0 < n) (hlen : bs.length = n)
    (ht : Inv (s.writeBytes s.dataAddr bs) → Inv t) : ResultHasInv (Machine.guardRange i .write s.dataAddr n s t) :=
  h.guardRange i .write s.dataAddr n fun hpass => by
    obtain ⟨hinside, -⟩ := (checkRange_write_none _ _ _ hn).1 hpass
    exact ht (h.writeBytes bs (hlen ▸ hinside))

/-- A wait check leaves pc alone while the wait goes on, and where the wait ends the core runs (R207). -/
theorem waitCheck_hasInv (h : Inv s) (x : Reg) : ResultHasInv (waitCheck x s) := by
  rcases waitCheck_cases x s with ⟨-, hwait⟩ | ⟨k, -, hwait⟩ <;> rw [hwait]
  · exact h.latchKeys.next
  · exact h.latchKeys.resumes.next_congr rfl (.inl rfl)

/-- An instruction of a running core keeps the invariant. Of what the invariant speaks of, most instructions change nothing or fault; the
stack, a store and the entry of a wait are the cases of their own. -/
theorem exec_hasInv (h : Inv s) (hrun : s.mode = .running) (hpc : s.pc.toNat + 1 < memSize) (i : Instr) :
    ResultHasInv (exec i s) := by
  cases i with
  | cls | jp nnn | seImm x nn | sneImm x nn | seReg x y | sneReg x y | ldImm x nn | addImm x nn | ldReg x y | addReg x y | subReg x y
  | shr x y | subn x y | shl x y | ldI nnn | rnd x nn | ldVxDt x | ldDtVx x | ldStVx x | addI x => exact h.next_congr rfl (.inl hrun)
  | orReg x y | andReg x y | xorReg x y => exact h.next_congr (by simp [invFields]) (.inl hrun)
  | ret =>
    change ResultHasInv (execRet s)
    rcases Fin.eq_zero_or_eq_succ s.sp with hsp | ⟨k, hsp⟩
    · rw [execRet_underflows (congrArg Fin.val hsp)]
      exact h.faultIn _ _ _ _
    · have hpop : Inv { s with sp := k.castSucc } := h.withSp (hsp ▸ Fin.castSucc_le_succ k)
      rw [execRet_pops (congrArg Fin.val hsp)]
      exact hpop.next_congr rfl (.inl hrun)
  | sys nnn =>
    change ResultHasInv (execSys nnn s)
    cases hp : s.params.sysPolicy with
    | fault =>
      rw [execSys_fault hp]
      exact h.faultIn _ _ _ _
    | nop =>
      rw [execSys_nop hp]
      exact h.next_congr rfl (.inl hrun)
  | call nnn =>
    change ResultHasInv (execCall nnn s)
    rcases Fin.eq_castSucc_or_eq_last s.sp with ⟨k, hsp⟩ | hsp
    · have hret : (s.pc + 2).toNat ≤ 0x1000 := by
        have hbound : s.pc.toNat + 1 < 0x1000 := hpc
        have hnext : (s.pc + 2).toNat = s.pc.toNat + 2 := advances_advance (s := s) rfl (by omega)
        omega
      rw [execCall_pushes (congrArg Fin.val hsp)]
      exact (h.push (congrArg Fin.val hsp) hret).next_congr rfl (.inl hrun)
    · rw [execCall_overflows (congrArg Fin.val hsp)]
      exact h.faultIn _ _ _ _
  | jpV0 nnn =>
    change ResultHasInv (execJpV0 nnn s)
    rcases Nat.lt_or_ge 0xFFFF (s.jumpTarget nnn) with hlarge | hfits
    · rw [execJpV0_faults hlarge]
      exact h.faultIn _ _ _ _
    · rw [execJpV0_jumps hfits]
      exact h.next_congr rfl (.inl hrun)
  | drw x y n => exact h.guardRange _ _ _ _ fun _ => h.congr rfl (.inl hrun)
  | skp x =>
    change ResultHasInv (execSkp x s)
    cases hv : s.keyIndex (s.getV x) with
    | some k =>
      rw [execSkp_skips hv]
      exact h.next_congr rfl (.inl hrun)
    | none =>
      rw [execSkp_faults hv]
      exact h.faultIn _ _ _ _
  | sknp x =>
    change ResultHasInv (execSknp x s)
    cases hv : s.keyIndex (s.getV x) with
    | some k =>
      rw [execSknp_skips hv]
      exact h.next_congr rfl (.inl hrun)
    | none =>
      rw [execSknp_faults hv]
      exact h.faultIn _ _ _ _
  | ldVxK x => exact (h.latchKeys.awaits (by simpa using hpc)).next
  | ldF x =>
    change ResultHasInv (execLdF x s)
    cases hv : s.fontDigit (s.getV x) with
    | some k =>
      rw [execLdF_points hv]
      exact h.next_congr rfl (.inl hrun)
    | none =>
      rw [execLdF_faults hv]
      exact h.faultIn _ _ _ _
  | ldB x => exact h.guardedStore _ (by decide) (length_bcdDigits _) fun ht => ht.congr rfl (.inl (by simpa using hrun))
  | ldStore x =>
    exact h.guardedStore _ x.val.succ_pos (State.length_regsUpTo s x) fun ht =>
      ht.congr (by simp [invFields]) (.inl (by simpa using hrun))
  | ldLoad x => exact h.guardRange _ _ _ _ fun _ => h.congr (by simp [invFields]) (.inl hrun)

end Sys2Proof.Safety
end

section
/-! PROOFS. The obligations about the keypad and the timers, and the invariant of a step (44_keypad_timers). -/

namespace Sys2Proof.Proofs

open Sys2Proof.Machine Sys2Proof.Safety

/-- Settles O52: a faulted core stays as it is, a fault names pc, and the wait check and the instructions keep the invariant. -/
theorem stepKeepsInvariant : Obligations.StepKeepsInvariant := by
  intro s t h ht
  have hstep : ResultHasInv (step s) := by
    rcases step_cases (rfl : step s = step s) with
      ⟨-, -, hs⟩ | ⟨x, -, hs⟩ | ⟨-, -, hs⟩ | ⟨w, hrun, hpc, -, ⟨-, -, hs⟩ | ⟨i, -, hs⟩⟩ <;> rw [hs]
    · exact h.next
    · exact waitCheck_hasInv h x
    · exact (h.raise _ _ _ _).next
    · exact (h.raise _ _ _ _).next
    · exact exec_hasInv h hrun hpc i
  exact hstep t ht

/-- Settles O38: a value that names a key gives the skip on its level, and any other is a fault. -/
theorem keySkips : Obligations.KeySkips := by
  intro x s
  constructor
  · intro k hk hnames
    have hkey : s.keyIndex (s.getV x) = some k := State.keyIndex_lowNibble hk hnames
    exact ⟨⟨_, execSkp_skips hkey, skips_skipIf Iff.rfl⟩, ⟨_, execSknp_skips hkey, skips_skipIf (Bool.not_eq_true' _).to_iff⟩⟩
  · rintro ⟨hlarge, hfault⟩
    have hnone : s.keyIndex (s.getV x) = none := State.keyIndex_none hlarge hfault
    exact ⟨faultsWith_of_faultIn (execSkp_faults hnone) encodes_wordXB,
      faultsWith_of_faultIn (execSknp_faults hnone) encodes_wordXB⟩

/-- Settles O42: with P empty the wait check latches the keys, which under `level` is nothing. -/
theorem waitWithoutKeyChangesNothing : Obligations.WaitWithoutKeyChangesNothing := by
  intro x s hwaits hnone
  have hstep : step s = .next s.latchKeys := (step_of_awaiting hwaits).trans (waitCheck_latches x hnone)
  refine ⟨fun hlevel => ?_, _, hstep, latched_latchKeys s, (KeptBut.refl s _).latchKeys fun k => ⟨k, rfl⟩⟩
  rw [hstep, State.latchKeys_level hlevel]

/-- Settles O43: with P nonempty the wait check ends the wait with a key of P. -/
theorem waitEndsWithSomeKey : Obligations.WaitEndsWithSomeKey := by
  intro x s hwaits hsome
  obtain ⟨k, hk, hcheck⟩ := waitCheck_ends x hsome
  refine ⟨_, k, (step_of_awaiting hwaits).trans hcheck, hk, State.endWait_getV_toNat _ x k,
    advances_advance (State.latchKeys_pc s), rfl, latched_latchKeys s, ?_⟩
  exact (((((KeptBut.refl s _).latchKeys (by simp)).countDraw (by simp)).withMode _ (by simp)).setV _ (by simp)).advance (by simp)

/-- Settles O39: one register write, of DT. -/
theorem readDelayTimer : Obligations.ReadDelayTimer := by
  intro x s
  exact ⟨_, rfl, State.getV_setV_same s x s.dt, advances_advance rfl, keptButThese_setV_advance _⟩

/-- Settles O40: the entry step latches the keys and sets Mode. -/
theorem keyWaitEntry : Obligations.KeyWaitEntry := by
  intro x s
  exact ⟨_, rfl, rfl, State.latchKeys_pc s, latched_latchKeys s,
    ((KeptBut.refl s _).latchKeys fun k => .inr ⟨k, rfl⟩).withMode _ (.inl rfl)⟩

/-- Settles O41: each writes its own timer. -/
theorem setTimers : Obligations.SetTimers := by
  intro x s
  exact ⟨⟨_, rfl, rfl, advances_advance rfl, ((KeptBut.refl s _).withDt _ (by simp)).advance (by simp)⟩,
    ⟨_, rfl, rfl, advances_advance rfl, ((KeptBut.refl s _).withSt _ (by simp)).advance (by simp)⟩⟩

/-- Settles O44: a member's own place in the list is a number that chooses it. -/
theorem everyKeyOfTheSetCanBeChosen : Obligations.EveryKeyOfTheSetCanBeChosen := by
  intro k ks j
  constructor
  · intro hj
    obtain ⟨n, hn, rfl⟩ := List.getElem_of_mem hj
    have hplace : n % (ks.length + 1) = n := Nat.mod_eq_of_lt hn
    exact ⟨n, by simp only [chooseKey, hplace]⟩
  · rintro ⟨n, rfl⟩
    exact chooseKey_mem k ks n

end Sys2Proof.Proofs
end

section
/-! PROOFS. What a tick, a key change and a step in Faulted answer (60_exceptions R224, R240 to R244). -/

namespace Sys2Proof.Machine

variable {s : State}

/-- Truncated subtraction keeps a timer at 0 (R240). -/
theorem tickByte_toNat (b : Byte) : (tickByte b).toNat = b.toNat - 1 := by
  unfold tickByte
  split
  · subst b
    rfl
  · bv_omega

theorem State.soundActive_iff (s : State) : s.soundActive = true ↔ s.st ≠ 0 := by
  have hzero : s.st = 0 ↔ s.st.toNat = 0 := BitVec.toNat_inj.symm
  rw [State.soundActive, decide_eq_true_iff, Nat.pos_iff_ne_zero, ne_eq, ne_eq, hzero]

@[simp] theorem State.withKey_keyDown_same (s : State) (k : Key) (b : Bool) : (s.withKey k b).keyDown k = b :=
  Vector.getElem_set_self k.isLt

theorem State.withKey_keyDown_ne {k j : Key} (h : j ≠ k) (b : Bool) : (s.withKey k b).keyDown j = s.keyDown j :=
  Vector.getElem_set_ne k.isLt j.isLt fun e => h (Fin.ext e.symm)

theorem setKey_of_key (k : Key) (b : Bool) (s : State) : setKey k.val b s = .next (s.withKey k b) := dif_pos k.isLt

theorem setKey_out_of_range {k : Nat} (h : 16 ≤ k) (b : Bool) (s : State) : setKey k b s = .refused .keyOutOfRange :=
  dif_neg (Nat.not_lt.2 h)

theorem step_of_faulted {f : FaultRecord} (h : s.mode = .faulted f) : step s = .next s := by
  simp only [step, h, faultedStep]

end Sys2Proof.Machine
end

section
/-! PROOFS. The frames of the host's moves, and what no step writes (10_state R31; 00_scope R9; 60_exceptions R240, R244;
70_reset_and_hazards R265). -/

namespace Sys2Proof.Safety

open Sys2Proof.Machine

variable {s t : State} {P : Part → Prop}

theorem KeptBut.tick (h : KeptBut s t P) (hdt : P .dt) (hst : P .st) : KeptBut s t.tick P :=
  (h.withDt (tickByte t.dt) hdt).withSt (tickByte t.st) hst

theorem KeptBut.withKey (h : KeptBut s t P) {k : Key} (b : Bool) (hp : P (.key k)) : KeptBut s (t.withKey k b) P :=
  h.trans fun p hn => by
    cases p with
    | key j =>
      have hj : j ≠ k := fun e => hn (e ▸ hp)
      exact State.withKey_keyDown_ne hj b
    | _ => rfl

theorem setKey_keepsBut (k : Nat) (b : Bool) (s : State) : ResultKeepsBut s (∃ j : Key, · = .key j) (setKey k b s) := by
  unfold setKey
  split
  · exact ((KeptBut.refl s _).withKey b ⟨_, rfl⟩).next
  · rintro _ ⟨⟩

theorem loadRom_keepsBut (bytes : List Byte) (s : State) :
    ResultKeepsBut s (fun p => p = .pc ∨ ∃ i < bytes.length, p = .byte (programBase + i)) (loadRom bytes s) := by
  unfold loadRom
  split
  · exact (((KeptBut.refl s _).writeBytes bytes fun i hi => .inr ⟨i, hi, rfl⟩).withPc 0x200 (.inl rfl)).next
  · rintro _ ⟨⟩

/-- The parts a step may write: all but the keypad, which is the host's (R31), and the parameters (R9). -/
def stepMayWrite : Part → Prop
  | .key _ => False
  | .params => False
  | _ => True

theorem step_keeps_keys_and_params (s : State) : ResultKeepsBut s stepMayWrite (step s) := by
  refine step_keepsBut trivial (fun x => (waitCheck_keepsBut x s).mono fun p hp => ?_)
    (fun i => (exec_keepsBut i s).mono fun p hp => ?_)
  all_goals
    cases p with
    | key _ | params => exact hp
    | _ => trivial

theorem KeptBut.keys_eq (h : KeptBut s t P) (hp : ∀ k, ¬ P (.key k)) : t.keys = s.keys :=
  Vector.ext fun k hk => h (.key ⟨k, hk⟩) (hp ⟨k, hk⟩)

end Sys2Proof.Safety
end

section
/-! PROOFS. What an instruction answers, over all of them: it completes, or it takes a fault R222 lists for it. -/

namespace Sys2Proof.Safety

open Sys2Proof.Machine

variable {s t : State} {i : Instr} {c : FaultCause}

/-- The record of a fault with this cause holds an address and a value where R220 lists them. -/
def InfoFits (c : FaultCause) (addr : Option Nat) (value : Option Byte) : Prop :=
  (addr.isSome = true ↔ c ∈ [.fetchOutOfBounds, .memOutOfBounds, .writeProtected]) ∧
    (value.isSome = true ↔ c ∈ [.keyIndexOutOfRange, .fontDigitOutOfRange])

/-- An instruction answers a next state. It completes, and then the core is not newly Faulted, or it raises a fault from the state before
it, with a cause R222 lists for it and the information R220 lists for the cause. -/
inductive ExecAnswers (i : Instr) (s : State) : Result → Prop
  | completes {t : State} (hmode : ∀ f, t.mode = .faulted f → s.mode = .faulted f) : ExecAnswers i s (.next t)
  | faults {c : FaultCause} {addr : Option Nat} {value : Option Byte} (hcause : c ∈ possibleCauses i) (hinfo : InfoFits c addr value) :
      ExecAnswers i s (faultIn i s c addr value)

theorem ExecAnswers.of_mode_kept (h : t.mode = s.mode) : ExecAnswers i s (.next t) := .completes fun _ hf => h ▸ hf

/-- The fault of an instruction for which R222 lists one cause. -/
theorem ExecAnswers.of_only_cause {addr : Option Nat} {value : Option Byte} (hcause : possibleCauses i = [c])
    (hinfo : InfoFits c addr value := by simp [InfoFits]) : ExecAnswers i s (faultIn i s c addr value) :=
  .faults (hcause ▸ List.mem_singleton_self c) hinfo

/-- The causes an access check fails with (20_memory R52, R53). -/
def accessCauses : Access → List FaultCause
  | .read => [.memOutOfBounds]
  | .write => [.memOutOfBounds, .writeProtected]

theorem checkByte_cause {p : Params} {k : Access} {a : Nat} (h : checkByte p k a = some c) : c ∈ accessCauses k := by
  unfold checkByte at h
  split at h
  · cases h
    cases k <;> simp [accessCauses]
  · split at h
    · obtain ⟨rfl, -⟩ := ‹_ ∧ _›
      cases h
      simp [accessCauses]
    · cases h

theorem infoFits_access {k : Access} (h : c ∈ accessCauses k) (a : Nat) : InfoFits c (some a) none := by
  have hc : c = .memOutOfBounds ∨ c = .writeProtected := by
    cases k with
    | read => exact .inl (List.mem_singleton.1 h)
    | write => exact List.mem_pair.1 h
  rcases hc with rfl | rfl <;> simp [InfoFits]

/-- An access completes its effect or fails with a cause of the check, where R222 lists those for the instruction. -/
theorem guardRange_answers {k : Access} (hcauses : possibleCauses i = accessCauses k) (a n : Nat) (hmode : t.mode = s.mode) :
    ExecAnswers i s (guardRange i k a n s t) := by
  rcases hcheck : checkRange s.params k a n with _ | ⟨c, bad⟩
  · rw [guardRange_pass hcheck]
    exact .of_mode_kept hmode
  · obtain ⟨_, -, -, hbad, -⟩ := checkRange_eq_some hcheck
    have hcause : c ∈ accessCauses k := checkByte_cause hbad
    rw [guardRange_fail hcheck]
    exact .faults (hcauses ▸ hcause) (infoFits_access hcause bad)

/-- Which instructions can fault and on what, one instruction at a time. -/
theorem exec_answers (i : Instr) (s : State) : ExecAnswers i s (exec i s) := by
  cases i with
  | cls | jp nnn | seImm x nn | sneImm x nn | seReg x y | sneReg x y | ldImm x nn | addImm x nn | ldReg x y | addReg x y | subReg x y
  | shr x y | subn x y | shl x y | ldI nnn | rnd x nn | ldVxDt x | ldDtVx x | ldStVx x | addI x => exact .of_mode_kept rfl
  | orReg x y | andReg x y | xorReg x y => exact .of_mode_kept (by simp)
  | ldVxK x => exact .completes nofun
  | ret =>
    change ExecAnswers _ s (execRet s)
    rcases Fin.eq_zero_or_eq_succ s.sp with hsp | ⟨k, hsp⟩
    · rw [execRet_underflows (congrArg Fin.val hsp)]
      exact .of_only_cause rfl
    · rw [execRet_pops (congrArg Fin.val hsp)]
      exact .of_mode_kept rfl
  | sys nnn =>
    change ExecAnswers _ s (execSys nnn s)
    cases hp : s.params.sysPolicy with
    | fault =>
      rw [execSys_fault hp]
      exact .of_only_cause rfl
    | nop =>
      rw [execSys_nop hp]
      exact .of_mode_kept rfl
  | call nnn =>
    change ExecAnswers _ s (execCall nnn s)
    rcases Fin.eq_castSucc_or_eq_last s.sp with ⟨k, hsp⟩ | hsp
    · rw [execCall_pushes (congrArg Fin.val hsp)]
      exact .of_mode_kept rfl
    · rw [execCall_overflows (congrArg Fin.val hsp)]
      exact .of_only_cause rfl
  | jpV0 nnn =>
    change ExecAnswers _ s (execJpV0 nnn s)
    rcases Nat.lt_or_ge 0xFFFF (s.jumpTarget nnn) with hlarge | hfits
    · rw [execJpV0_faults hlarge]
      exact .of_only_cause rfl
    · rw [execJpV0_jumps hfits]
      exact .of_mode_kept rfl
  | skp x =>
    change ExecAnswers _ s (execSkp x s)
    cases hv : s.keyIndex (s.getV x) with
    | some k =>
      rw [execSkp_skips hv]
      exact .of_mode_kept rfl
    | none =>
      rw [execSkp_faults hv]
      exact .of_only_cause rfl
  | sknp x =>
    change ExecAnswers _ s (execSknp x s)
    cases hv : s.keyIndex (s.getV x) with
    | some k =>
      rw [execSknp_skips hv]
      exact .of_mode_kept rfl
    | none =>
      rw [execSknp_faults hv]
      exact .of_only_cause rfl
  | ldF x =>
    change ExecAnswers _ s (execLdF x s)
    cases hv : s.fontDigit (s.getV x) with
    | some d =>
      rw [execLdF_points hv]
      exact .of_mode_kept rfl
    | none =>
      rw [execLdF_faults hv]
      exact .of_only_cause rfl
  | drw x y n => exact guardRange_answers (k := .read) rfl _ _ rfl
  | ldB x => exact guardRange_answers (k := .write) rfl _ _ (by simp)
  | ldStore x => exact guardRange_answers (k := .write) rfl _ _ (by simp)
  | ldLoad x => exact guardRange_answers (k := .read) rfl _ _ (by simp)

/-- A fault an instruction newly raises leaves the state before it but for Mode, and its record is as R220 and R222 say. -/
theorem ExecAnswers.fault_precise {f : FaultRecord} {r : Result} (h : ExecAnswers i s r) (hs : ∀ g, s.mode ≠ .faulted g)
    (hr : r = .next t) (hf : t.mode = .faulted f) :
    t = { s with mode := .faulted f } ∧ f.pc = s.pc ∧ f.opcode = some (encode i) ∧ f.cause ∈ possibleCauses i ∧
      InfoFits f.cause f.addr f.value := by
  cases h with
  | completes hmode =>
    cases hr
    exact absurd (hmode f hf) (hs f)
  | faults hcause hinfo =>
    cases hr
    cases hf
    exact ⟨rfl, rfl, rfl, hcause, hinfo⟩

theorem ExecAnswers.next {r : Result} (h : ExecAnswers i s r) : ∃ t, r = .next t := by
  cases h with
  | completes _ | faults _ _ => exact ⟨_, rfl⟩

end Sys2Proof.Safety
end

section
/-! PROOFS. What a step answers, and what it ran where it changed something an instruction alone writes (70_reset_and_hazards R263). -/

namespace Sys2Proof.Safety

open Sys2Proof.Machine

variable {s t : State} {p : Part}

theorem step_next (s : State) : ∃ t, step s = .next t := by
  rcases step_cases (rfl : step s = step s) with
    ⟨-, -, h⟩ | ⟨x, -, h⟩ | ⟨-, -, h⟩ | ⟨w, -, -, -, ⟨-, -, h⟩ | ⟨i, -, h⟩⟩ <;> rw [h]
  · exact ⟨_, rfl⟩
  · rcases waitCheck_cases x s with ⟨-, hwait⟩ | ⟨k, -, hwait⟩ <;> exact ⟨_, hwait⟩
  · exact ⟨_, rfl⟩
  · exact ⟨_, rfl⟩
  · exact (exec_answers i s).next

theorem Kept.raise (hp : p ≠ .mode) (c : FaultCause) (o : Option Word) (a : Option Nat) (b : Option Byte) :
    Kept s (s.raise c o a b) p := (KeptBut.refl s (· = .mode)).raise c o a b rfl p hp

theorem fetches_of_fetch {w : Word} (hrun : s.mode = .running) (hpc : s.pc.toNat + 1 < memSize) (hfetch : s.fetch = .word w) :
    Fetches s w := by
  rw [State.fetch_inside hpc] at hfetch
  cases hfetch
  exact fetches_wordOfBytes hrun hpc

/-- A part other than Mode that no wait check writes changes only where the step runs an instruction that may write it. -/
theorem step_runs_writer (h : step s = .next t) (hmode : p ≠ .mode) (hwait : ∀ x, ¬ waitMayWrite x p) (hp : ¬ Kept s t p) :
    ∃ w i, Fetches s w ∧ decode w = .instr i ∧ exec i s = .next t ∧ mayWrite s.params i p := by
  rcases step_cases h with
    ⟨-, -, hs⟩ | ⟨x, -, hs⟩ | ⟨-, -, hs⟩ | ⟨w, hrun, hpc, hfetch, ⟨-, -, hs⟩ | ⟨i, hdecode, hs⟩⟩
  · cases hs
    exact absurd (Kept.refl s p) hp
  · exact absurd (waitCheck_keepsBut x s t hs.symm p (hwait x)) hp
  · cases hs
    exact absurd (Kept.raise hmode _ _ _ _) hp
  · cases hs
    exact absurd (Kept.raise hmode _ _ _ _) hp
  · have hwrites : mayWrite s.params i p := not_not.1 fun hn => hp (exec_keepsBut i s t hs.symm p hn)
    exact ⟨w, i, fetches_of_fetch hrun hpc hfetch, hdecode, hs.symm, hwrites⟩

/-- A timer that a move other than a reset and a tick changes is written by the instruction of a step (R241). -/
theorem hostOp_changes_timer {op : HostOp} (h : hostOp op s = .next t) (htimer : p = .dt ∨ p = .st) (hreset : op ≠ .reset)
    (htick : op ≠ .tick) (hp : ¬ Kept s t p) :
    op = .step ∧ ∃ w i, Fetches s w ∧ decode w = .instr i ∧ exec i s = .next t ∧ mayWrite s.params i p := by
  cases op with
  | reset => exact absurd rfl hreset
  | tick => exact absurd rfl htick
  | loadRom bytes => exact absurd (loadRom_keepsBut bytes s t h p (by rcases htimer with rfl | rfl <;> simp)) hp
  | setKey k b => exact absurd (setKey_keepsBut k b s t h p (by rcases htimer with rfl | rfl <;> simp)) hp
  | step =>
    refine ⟨rfl, step_runs_writer h ?_ ?_ hp⟩
    · rcases htimer with rfl | rfl <;> simp
    · rcases htimer with rfl | rfl <;> exact fun _ => id

end Sys2Proof.Safety
end

section
/-! PROOFS. The obligations about faults, the timers and the keys the host sets (60_exceptions). -/

namespace Sys2Proof.Proofs

open Sys2Proof.Machine Sys2Proof.Safety

/-- Settles O8: each way a step can go answers a next state, and none writes the keypad or the parameters. -/
theorem everyStepAnswersNext : Obligations.EveryStepAnswersNext := by
  refine ⟨fun s => ?_, fun i s => (exec_answers i s).next⟩
  obtain ⟨t, ht⟩ := step_next s
  have hkept : KeptBut s t stepMayWrite := step_keeps_keys_and_params s t ht
  exact ⟨t, ht, hkept.keys_eq fun _ => id, hkept .params id⟩

/-- Settles O45: an instruction that completes leaves no new fault, so Faulted was entered by raising one. -/
theorem faultsArePrecise : Obligations.FaultsArePrecise :=
  fun i s _ _ hs ht hf => (exec_answers i s).fault_precise hs ht hf

/-- Settles O51: only an instruction that may write a timer changes it between resets and ticks, and its write is Vx. -/
theorem timersWrittenOnlyAsListed : Obligations.TimersWrittenOnlyAsListed := by
  intro op s t h
  refine ⟨?_, ?_, fun hreset htick hdt => ?_, fun hreset htick hst => ?_⟩
  · rintro rfl
    cases h
    exact ⟨rfl, rfl⟩
  · rintro rfl
    cases h
    exact ⟨tickByte_toNat s.dt, tickByte_toNat s.st⟩
  · obtain ⟨hop, w, _, hw, hdecode, hexec, x, rfl⟩ := hostOp_changes_timer h (.inl rfl) hreset htick hdt
    cases hexec
    exact ⟨hop, w, x, hw, hdecode, rfl⟩
  · obtain ⟨hop, w, _, hw, hdecode, hexec, x, rfl⟩ := hostOp_changes_timer h (.inr rfl) hreset htick hst
    cases hexec
    exact ⟨hop, w, x, hw, hdecode, rfl⟩

/-- Settles O46: no move but the reset writes Mode in Faulted. -/
theorem faultedIsFinalUntilReset : Obligations.FaultedIsFinalUntilReset := by
  intro s f hf
  refine ⟨step_of_faulted hf, hf, tickByte_toNat s.dt, tickByte_toNat s.st, fun k b => ?_, rfl⟩
  exact ⟨s.withKey k b, setKey_of_key k b s, State.withKey_keyDown_same s k b, hf⟩

/-- Settles O56: a tick is two timer writes. -/
theorem tickDecrements : Obligations.TickDecrements := by
  intro s
  exact ⟨tickByte_toNat s.dt, tickByte_toNat s.st, (KeptBut.refl s _).tick (by simp) (by simp), s.soundActive_iff⟩

/-- Settles O57: a key's number is below 16, and one key is written. -/
theorem setKeyWritesOneKey : Obligations.SetKeyWritesOneKey := by
  intro b s
  refine ⟨fun k => ?_, fun k hk => setKey_out_of_range hk b s⟩
  exact ⟨s.withKey k b, setKey_of_key k b s, State.withKey_keyDown_same s k b, (KeptBut.refl s _).withKey b (by simp)⟩

end Sys2Proof.Proofs
end

section
/-! PROOFS. What a step answers when the word is illegal or cannot be fetched, the two answers of load_rom, the one set_key that succeeds,
and the jump to its own address (70_reset_and_hazards R263 to R272; 60_exceptions R244). -/

namespace Sys2Proof.Machine

variable {s t : State}

/-! ### A step that ends before execution (R263) -/

theorem runWord_of_illegal {w : Word} {why : Illegal} (h : decode w = .illegal why) (s : State) : runWord w s = decodeFault s w := by
  simp only [runWord, h]

theorem step_of_fetch_outside (hrun : s.mode = .running) (hpc : memSize ≤ s.pc.toNat + 1) :
    step s = fetchFault s (max s.pc.toNat memSize) := by
  simp only [step, hrun, State.fetch_outside hpc]

/-! ### The host's moves that may fail (R244, R265, R266) -/

theorem loadRom_fits {bytes : List Byte} (h : bytes.length ≤ maxRom) (s : State) :
    loadRom bytes s = .next { s.writeBytes programBase bytes with pc := 0x200 } := if_pos h

theorem loadRom_too_large {bytes : List Byte} (h : maxRom < bytes.length) (s : State) : loadRom bytes s = .refused .romTooLarge :=
  if_neg (Nat.not_le.2 h)

theorem setKey_next {k : Nat} {b : Bool} (h : setKey k b s = .next t) : ∃ j : Key, t = s.withKey j b := by
  rcases Nat.lt_or_ge k 16 with hk | hk
  · rw [setKey_of_key ⟨k, hk⟩ b s] at h
    cases h
    exact ⟨⟨k, hk⟩, rfl⟩
  · rw [setKey_out_of_range hk] at h
    cases h

theorem loadRom_next {bytes : List Byte} (h : loadRom bytes s = .next t) :
    bytes.length ≤ maxRom ∧ t = { s.writeBytes programBase bytes with pc := 0x200 } := by
  rcases Nat.lt_or_ge maxRom bytes.length with hlen | hlen
  · rw [loadRom_too_large hlen] at h
    cases h
  · rw [loadRom_fits hlen] at h
    cases h
    exact ⟨hlen, rfl⟩

/-! ### The jump to its own address (R272) -/

/-- An address inside memory with family 1 above it is the word of a jump to that address. -/
theorem or_eq_encode_jp {a : Word} (h : a.toNat < 0x1000) : 0x1000 ||| a = encode (.jp (a.setWidth 12)) := by
  apply BitVec.eq_of_toNat_eq
  have hlow : (a.setWidth 12).toNat = a.toNat := (BitVec.toNat_setWidth 12 a).trans (Nat.mod_eq_of_lt h)
  rw [encode, packA, BitVec.toNat_append, BitVec.toNat_or, hlow]
  rfl

theorem State.jumpTo_self (h : s.pc.toNat < 0x1000) : s.jumpTo (s.pc.setWidth 12) = s := by
  have hpc : (s.pc.setWidth 12).setWidth 16 = s.pc := by
    apply BitVec.eq_of_toNat_eq
    rw [BitVec.toNat_setWidth, BitVec.toNat_setWidth]
    omega
  rw [State.jumpTo, hpc]

theorem State.idle_iff (s : State) :
    s.idle = true ↔ s.mode = .running ∧ s.pc.toNat ≤ 0xFFE ∧ s.fetch = .word (0x1000 ||| s.pc) := by
  simp only [State.idle, Bool.and_eq_true, decide_eq_true_eq, and_assoc]

/-- A fetch reads the parameters, pc and memory alone. -/
theorem State.fetch_congr (hparams : t.params = s.params) (hpc : t.pc = s.pc) (hread : ∀ a, t.readByte a = s.readByte a) :
    t.fetch = s.fetch := by
  simp only [State.fetch, hparams, hpc, hread]

end Sys2Proof.Machine
end

section
/-! PROOFS. The Idle state, from the parts it depends on, and the invariant after each of the host's moves (70_reset_and_hazards R262 to
R272). -/

namespace Sys2Proof.Safety

open Sys2Proof.Machine

variable {s t : State} {P : Part → Prop}

/-! ### Idle (R272) -/

/-- In an Idle state the word fetched is a jump to pc. -/
theorem idle_step (h : s.idle = true) : step s = .next s := by
  obtain ⟨hrun, hle, hfetch⟩ := s.idle_iff.1 h
  have hinside : s.pc.toNat + 1 < 0x1000 := by omega
  have hpc : s.pc.toNat < 0x1000 := Nat.lt_of_succ_lt hinside
  rw [or_eq_encode_jp hpc] at hfetch
  calc step s = runWord (encode (.jp (s.pc.setWidth 12))) s :=
        step_of_fetches (fetches_of_fetch hrun hinside hfetch)
    _ = exec (.jp (s.pc.setWidth 12)) s := runWord_of_decode (decode_encode rfl) s
    _ = .next s := congrArg Host.Outcome.next (State.jumpTo_self hpc)

/-- A move that keeps Mode, pc, the parameters and memory keeps Idle. -/
theorem KeptBut.idle (h : KeptBut s t P) (hmode : ¬ P .mode) (hpc : ¬ P .pc) (hparams : ¬ P .params) (hmem : ∀ a, ¬ P (.byte a))
    (hidle : s.idle = true) : t.idle = true := by
  have hm : t.mode = s.mode := h .mode hmode
  have hp : t.pc = s.pc := h .pc hpc
  have hf : t.fetch = s.fetch := State.fetch_congr (h .params hparams) hp fun a => h (.byte a) (hmem a)
  rw [State.idle_iff] at hidle ⊢
  rwa [hm, hp, hf]

/-! ### The invariant (R262) -/

theorem Inv.rebooted (h : Inv (State.resetWith s.params)) : Inv s.rebooted := h.congr rfl (.inl rfl)

theorem Inv.tick (h : Inv s) : Inv s.tick := h.congr rfl (.inr rfl)

theorem Inv.withKey (h : Inv s) (k : Key) (b : Bool) : Inv (s.withKey k b) := h.congr rfl (.inr rfl)

/-- A ROM that is not refused ends inside memory, and pc is free while the core runs (R265, R267). -/
theorem Inv.loadRom (h : Inv s) (hrun : s.mode = .running) (bytes : List Byte) : ResultHasInv (loadRom bytes s) := by
  intro t ht
  obtain ⟨hlen, rfl⟩ := loadRom_next ht
  have hinside : programBase + bytes.length ≤ memSize := Nat.add_le_add_left hlen programBase
  exact (h.writeBytes bytes hinside).congr rfl (.inl ((s.writeBytes_mode programBase bytes).trans hrun))

theorem Inv.setKey (h : Inv s) (k : Nat) (b : Bool) : ResultHasInv (setKey k b s) := by
  intro t ht
  obtain ⟨j, rfl⟩ := setKey_next ht
  exact h.withKey j b

end Sys2Proof.Safety
end

section
/-! PROOFS. The obligations about reset, the host's moves and the step (70_reset_and_hazards). -/

namespace Sys2Proof.Proofs

open Sys2Proof.Machine Sys2Proof.Safety

/-- Settles O55: the reset state has the invariant, a step keeps it, and of what it speaks of the other moves write only the ROM's bytes,
all inside memory, and pc, while the core runs. -/
theorem hostMovesKeepInvariant : Obligations.HostMovesKeepInvariant := by
  intro op s t h hallowed ht
  cases op with
  | reset =>
    cases ht
    exact Inv.rebooted (resetMeetsInvariants s.params).1
  | loadRom bytes => exact h.loadRom (hallowed bytes rfl) bytes t ht
  | step => exact stepKeepsInvariant s t h ht
  | tick =>
    cases ht
    exact h.tick
  | setKey k b => exact h.setKey k b t ht

/-- Settles O58: the bytes are written from the program base on, and a longer image is refused before any write. -/
theorem romLoad : Obligations.RomLoad := by
  intro bytes s
  refine ⟨fun hlen => ?_, fun hlen => loadRom_too_large hlen s⟩
  have hload := loadRom_fits hlen s
  exact ⟨_, hload, State.readByte_writeBytes s programBase bytes, rfl, loadRom_keepsBut bytes s _ hload⟩

/-- Settles O60: the step of an Idle state jumps to pc, and neither timers nor keys are among what Idle depends on. -/
theorem idleStays : Obligations.IdleStays := by
  intro s h
  have htick : KeptButThese s s.tick [.dt, .st] := (KeptBut.refl s _).tick (by simp) (by simp)
  refine ⟨idle_step h, htick.idle (by simp) (by simp) (by simp) (by simp) h, fun k b t ht => ?_⟩
  exact (setKey_keepsBut k b s t ht).idle (by simp) (by simp) (by simp) (by simp) h

/-- Settles O6: each clause is the branch of the step that Mode, the fetch and the decoding choose. -/
theorem stepRunsDecodedInstruction : Obligations.StepRunsDecodedInstruction := by
  intro s
  refine ⟨fun f hf => step_of_faulted hf, fun x hx => step_of_awaiting hx, fun w i hw hi => ?_, fun w why hw hwhy => ?_,
    step_of_fetch_outside⟩
  · exact (step_of_fetches hw).trans (runWord_of_decode hi s)
  · exact (step_of_fetches hw).trans (runWord_of_illegal hwhy s)

end Sys2Proof.Proofs
end
